-- ==== Sys2Proof/Word.lean ====
section
/-! DEFINITION. The two value types of the block: bytes and 16-bit words (R7, R9 of 00_scope.md). -/

namespace Sys2Proof

/-- An 8-bit value: a byte of memory, of an instruction, or of a byte register (R9). -/
abbrev Byte := BitVec 8

/-- A 16-bit value: a general register, `ip`, an address (R7, R9). -/
abbrev Word := BitVec 16

end Sys2Proof
end

