-- ==== Sys2Proof/Syntax.lean ====
section
/-! DEFINITION. The syntax of instructions: the operand forms of R85 (30_encoding.md) and `Instr`, one constructor per row of
spec/opcode_table.json; and the decoder's output record of R85, which the execution engine runs. -/

namespace Sys2Proof

/-- The operation width `W` of an instruction: 8 or 16 bits, the `w` bit (R86). -/
inductive Width where
  | byte   -- w = 0, W = 8
  | word   -- w = 1, W = 16
  deriving DecidableEq, Repr

/-- The direction bit `d` (R68): which of the two operands is the destination. -/
inductive Dir where
  | toRm    -- d = 0: destination the r/m operand, source the register
  | toReg   -- d = 1: destination the register, source the r/m operand
  deriving DecidableEq, Repr

/-- The operation of an ALU instruction (R72): field values 000, 101, 111. -/
inductive AluKind where
  | add | sub | cmp
  deriving DecidableEq, Repr

/-- A 3-bit register code (R21, R22, R63): it names `x[code]` at width 16 and `xb[code]` at width 8. -/
abbrev RegCode := Fin 8

/-- The eight effective-address modes, in the order of the `rm` field 000 to 111 (R66). -/
inductive EaMode where
  | bxSi | bxDi | bpSi | bpDi | si | di | bp | bx
  deriving DecidableEq, Repr

/-- The displacement of an effective address, with its encoded size (R67). -/
inductive Disp where
  | none
  | d8  (v : Byte)
  | d16 (v : Word)
  deriving DecidableEq, Repr

/-- A memory operand: a direct address (R65, R71) or an effective address (R66). -/
inductive MemOp where
  | direct (addr : Word)
  | ea (mode : EaMode) (disp : Disp)
  deriving DecidableEq, Repr

/-- What the `mod` and `rm` fields of a ModRM byte name (R64 to R67). -/
inductive RmOp where
  | reg (code : RegCode)
  | mem (m : MemOp)
  deriving DecidableEq, Repr

/-- An immediate with its width: the source's Immediate8 and Immediate16 (R69, R85). -/
inductive Imm where
  | imm8  (v : Byte)
  | imm16 (v : Word)
  deriving DecidableEq, Repr

/-- The width of the instruction an immediate stands in: `w` selects both (R69, R86). -/
def Imm.width : Imm → Width
  | .imm8 _ => .byte
  | .imm16 _ => .word

/-- The closed instruction set (R2), one constructor per row of spec/opcode_table.json. -/
inductive Instr where
  /-- MOV r/m, reg and MOV reg, r/m, `88`-`8B` (R131). -/
  | movRmReg (d : Dir) (w : Width) (reg : RegCode) (rm : RmOp)
  /-- MOV reg, imm, `B0`-`BF` (R132). -/
  | movRegImm (reg : RegCode) (imm : Imm)
  /-- MOV r/m, imm, `C6`, `C7` (R133). -/
  | movRmImm (rm : RmOp) (imm : Imm)
  /-- MOV acc, [addr], `A0`, `A1` (R134). -/
  | movAccMem (w : Width) (addr : Word)
  /-- MOV [addr], acc, `A2`, `A3` (R135). -/
  | movMemAcc (w : Width) (addr : Word)
  /-- ADD r/m, reg and ADD reg, r/m, `00`-`03` (R153). -/
  | addRmReg (d : Dir) (w : Width) (reg : RegCode) (rm : RmOp)
  /-- SUB r/m, reg and SUB reg, r/m, `28`-`2B` (R154). -/
  | subRmReg (d : Dir) (w : Width) (reg : RegCode) (rm : RmOp)
  /-- CMP r/m, reg and CMP reg, r/m, `38`-`3B` (R155). -/
  | cmpRmReg (d : Dir) (w : Width) (reg : RegCode) (rm : RmOp)
  /-- ADD r/m, imm, `80` with operation 000 (R156). -/
  | addRmImm80 (rm : RmOp) (i8 : Byte)
  /-- ADD r/m, imm, `81` with operation 000 (R156). -/
  | addRmImm81 (rm : RmOp) (i16 : Word)
  /-- ADD r/m, imm, `83` with operation 000; `i8` is the encoded byte, before its sign extension (R156, R70). -/
  | addRmImm83 (rm : RmOp) (i8 : Byte)
  /-- SUB r/m, imm, `80` with operation 101 (R157). -/
  | subRmImm80 (rm : RmOp) (i8 : Byte)
  /-- SUB r/m, imm, `81` with operation 101 (R157). -/
  | subRmImm81 (rm : RmOp) (i16 : Word)
  /-- SUB r/m, imm, `83` with operation 101; `i8` as for ADD (R157, R70). -/
  | subRmImm83 (rm : RmOp) (i8 : Byte)
  /-- CMP r/m, imm, `80` with operation 111 (R158). -/
  | cmpRmImm80 (rm : RmOp) (i8 : Byte)
  /-- CMP r/m, imm, `81` with operation 111 (R158). -/
  | cmpRmImm81 (rm : RmOp) (i16 : Word)
  /-- CMP r/m, imm, `83` with operation 111; `i8` as for ADD (R158, R70). -/
  | cmpRmImm83 (rm : RmOp) (i8 : Byte)
  /-- ADD acc, imm, `04`, `05` (R159). -/
  | addAccImm (imm : Imm)
  /-- SUB acc, imm, `2C`, `2D` (R160). -/
  | subAccImm (imm : Imm)
  /-- CMP acc, imm, `3C`, `3D` (R161). -/
  | cmpAccImm (imm : Imm)
  /-- JE rel8, `74`; `d8` is the raw displacement byte (R181, R73). -/
  | je (d8 : Byte)
  /-- JNE rel8, `75` (R182, R73). -/
  | jne (d8 : Byte)
  deriving DecidableEq, Repr

/-- An operand location of the decoder's output record (R85). A `reg` or `imm` has the width of its record: R85 says the
decoder never produces another, and here no other can be written (log entry 7). At width 8 an immediate's value is the
zero-extended byte (log entry 6). -/
inductive Loc where
  | reg (code : RegCode)
  | mem (m : MemOp)
  | imm (v : Word)
  deriving DecidableEq, Repr

/-- The decoder's output record, the decoded-instruction bus of R6 (R85). -/
inductive Record where
  | mov (w : Width) (dst src : Loc)
  | op (kind : AluKind) (w : Width) (dst src : Loc)
  | je (d8 : Byte)
  | jne (d8 : Byte)
  deriving DecidableEq, Repr

end Sys2Proof
end

