-- ==== Sys2Proof/Machine/Bits.lean ====
section
/-! DEFINITION. Byte order, sign and zero extension, truncation to a width (R8, R9 of 00_scope.md). They stand under
Machine/ so that a later repair may mend them. -/

namespace Sys2Proof

/-- `hi ++ lo`: the 16-bit value whose low byte came first (R42, R46, R69). -/
def joinBytes (lo hi : Byte) : Word := hi ++ lo

/-- `v[7:0]` (R43). -/
def lowByte (v : Word) : Byte := v.extractLsb' 0 8

/-- `v[15:8]` (R43). -/
def highByte (v : Word) : Byte := v.extractLsb' 8 8

/-- `sext_16` of a byte (R9): `v` if `v[7] = 0`, else `v + 0xFF00`. -/
def sext16 (v : Byte) : Word := v.signExtend 16

/-- `zext_16` of a byte (R9). -/
def zext16 (v : Byte) : Word := v.setWidth 16

/-- `signed_8` (R9): an integer in `[-128, 127]`. -/
def signed8 (v : Byte) : Int := v.toInt

/-- `signed_16` (R9). -/
def signed16 (v : Word) : Int := v.toInt

/-- The width `W` in bits (R86). -/
def Width.bits : Width → Nat
  | .byte => 8
  | .word => 16

/-- `W/8`, the number of bytes an operand in memory occupies (R48). -/
def Width.bytes : Width → Nat
  | .byte => 1
  | .word => 2

/-- `v mod 2^W` (R9): an operand value at width 8 is carried as a zero-extended word (log entry 6). -/
def Width.trunc (w : Width) (v : Word) : Word :=
  match w with
  | .byte => zext16 (lowByte v)
  | .word => v

/-- `msb_W(v) = v[W-1]` (R9). -/
def Width.msb (w : Width) (v : Word) : Bool :=
  match w with
  | .byte => v.getLsbD 7
  | .word => v.getLsbD 15

/-- The value of an immediate as an operand value at its own width (R69). -/
def Imm.value : Imm → Word
  | .imm8 v => zext16 v
  | .imm16 v => v

end Sys2Proof
end

