-- ==== Sys2Proof/Config.lean ====
section
/-! DEFINITION. The implementation parameters of R7 (00_scope.md). "Nothing else is a parameter"; the spec leaves no value
open (92_eei_decisions.md), so there is no free value here. -/

namespace Sys2Proof.Config

/-- Memory size in bytes, "64 KiB" (R7, R40). It is also the bound of the simulator's fetch cursor (R89). -/
def memSize : Nat := 65536

/-- The longest image `load` accepts (R7, R220; decision D11). -/
def maxImage : Nat := 65536

/-- The longest instruction, in bytes (R60, R84). -/
def maxInstrLen : Nat := 6

end Sys2Proof.Config
end

