-- ==== Sys2Proof/Machine/State.lean ====
section
/-! DEFINITION. The state of the block, the closed list of R20 (10_state.md), as plain data; its value after reset (R35); and
the reasons a step can stop. -/

namespace Sys2Proof.Machine

/-- `status` (R20, R31). -/
inductive Status where
  | running
  | halted     -- a step found `ip >= L`
  | faulted    -- a fault was raised
  deriving DecidableEq, Repr

/-- The fault kinds (R191). -/
inductive FaultKind where
  | unrecognizedOpcode
  | outOfBounds
  | invalidOperand
  | unknownRegister
  deriving DecidableEq, Repr

/-- The `info` of a fault (R82, R114, R192, R193, R196). -/
inductive FaultInfo where
  /-- `{byte: b0, at: 0}`: an opcode byte outside the accepted set. -/
  | opcode (b0 : Byte)
  /-- `{byte: b0, modrm: b1, at: 1}`: an unsupported operation field. -/
  | operation (b0 b1 : Byte)
  /-- `{addr: …}`: the first out-of-range address, an integer that may be negative. -/
  | address (addr : Int)
  /-- `{op: …}`: what was asked of an operand that has no such access. -/
  | operand (op : String)
  deriving DecidableEq, Repr

/-- The fault record (R190, R196). -/
structure FaultRecord where
  kind : FaultKind
  code : Nat
  info : FaultInfo
  /-- The value of `ip` when the fault was raised. -/
  ipAtDetection : Word
  /-- The value of `n`: the instructions completed before the faulting one. -/
  ordinal : Nat
  deriving DecidableEq, Repr

/-- Memory as the cells that do not hold 0, addresses strictly rising; an unlisted address reads as 0, which is what the spec
puts there at load (R35, R50). -/
abbrev Memory := List Host.Cell

/-- The canonical form from address `lo` on: addresses rise strictly, each inside memory, and no listed byte is 0. -/
def Memory.wfFrom (lo : Nat) : Memory → Bool
  | [] => true
  | (a, v) :: m => decide (lo ≤ a) && decide (a < Config.memSize) && v != 0 && Memory.wfFrom (a + 1) m

/-- The canonical form of a memory. -/
def Memory.wf (m : Memory) : Bool := Memory.wfFrom 0 m

/-- The complete state (R20): "exactly the following, and nothing else". -/
structure State where
  /-- `x[0..7]`, the general registers (R21). -/
  regs : Vector Word 8
  /-- `ip`, the instruction pointer (R25). -/
  ip : Word
  /-- `zf`, the zero flag (R26). -/
  zf : Bool
  /-- `sf`, the sign flag (R26). -/
  sf : Bool
  /-- `mem[0..0xFFFF]` (R34, R40). -/
  mem : Memory
  /-- `L`, the program length, 0 to 65536 (R30). -/
  progLen : Nat
  /-- `status` (R31). -/
  status : Status
  /-- `fault`, "empty otherwise" (R31). -/
  fault : Option FaultRecord
  /-- `n`, the instruction ordinal (R32). -/
  n : Nat
  /-- The decode cursor's pending length (R33; log entry 4). -/
  pending : Nat
  deriving DecidableEq, Repr

/-- The state right after reset: what `load` leaves (R35, R220), of the empty image, which R222 calls legal (log entry 3).
Every value is the spec's. -/
def State.reset : State where
  regs := Vector.replicate 8 0
  ip := 0
  zf := false
  sf := false
  mem := []
  progLen := 0
  status := .running
  fault := none
  n := 0
  pending := 0

/-- Why there is no next state. The block's own faults are not among these: their entry is described by R190 and is a next
state with `status = Faulted` (log entry 1). -/
inductive Fault where
  /-- Raised by `step` when `status = Halted`: "In `Halted` or `Faulted` there is no step" (R110). Safe: a stopped block
  changes no state (R31; log entry 2). -/
  | noStepHalted
  /-- Raised by `step` when `status = Faulted` (R110, R190, R199). Safe, for the same reason. -/
  | noStepFaulted
  deriving DecidableEq, Repr

/-- Why an instruction has no meaning. -/
inductive Refusal where
  /-- Raised by an arm of `exec` for an instruction that has no meaning yet; no arm raises it now. Safe: nothing is proved
  of a step that is refused. -/
  | notModelled (mnemonic : String)
  deriving DecidableEq, Repr

/-- What a meaning answers. -/
abbrev Result := Host.Outcome State Fault Refusal

end Sys2Proof.Machine
end

