-- ==== Sys2Proof/Machine/Flags.lean ====
section
/-! DEFINITION. The one flag computation of the block (R115, R26): zero and sign. No other flag exists (R27). -/

namespace Sys2Proof.Machine

/-- `SetZS(W, r)`: `zf <- (r = 0); sf <- r[W-1]`, for a `W`-bit result (R115). -/
def State.setZS (s : State) (w : Width) (r : Word) : State :=
  { s with zf := decide (r = 0), sf := w.msb r }

end Sys2Proof.Machine
end

