-- ==== Sys2Proof/WellFormed.lean ====
section
/-! DEFINITION. The one check that the types of Syntax.lean leave open: the mode `[bp]` without a displacement has no
encoding, because `mod = 00, rm = 110` is the direct address (R65, R66). -/

namespace Sys2Proof

/-- Mode 110 (`bp`) occurs "only with `mod` = 01 or 10" (R66). -/
def MemOp.wf : MemOp → Bool
  | .ea .bp .none => false
  | _ => true

/-- An r/m operand is well formed when its memory operand is (R64, R66). -/
def RmOp.wf : RmOp → Bool
  | .reg _ => true
  | .mem m => m.wf

/-- An instruction is well formed when its r/m operand, if it has one, has an encoding. -/
def Instr.wf : Instr → Bool
  | .movRmReg _ _ _ rm => rm.wf
  | .movRegImm _ _ => true
  | .movRmImm rm _ => rm.wf
  | .movAccMem _ _ => true
  | .movMemAcc _ _ => true
  | .addRmReg _ _ _ rm => rm.wf
  | .subRmReg _ _ _ rm => rm.wf
  | .cmpRmReg _ _ _ rm => rm.wf
  | .addRmImm80 rm _ => rm.wf
  | .addRmImm81 rm _ => rm.wf
  | .addRmImm83 rm _ => rm.wf
  | .subRmImm80 rm _ => rm.wf
  | .subRmImm81 rm _ => rm.wf
  | .subRmImm83 rm _ => rm.wf
  | .cmpRmImm80 rm _ => rm.wf
  | .cmpRmImm81 rm _ => rm.wf
  | .cmpRmImm83 rm _ => rm.wf
  | .addAccImm _ => true
  | .subAccImm _ => true
  | .cmpAccImm _ => true
  | .je _ => true
  | .jne _ => true

end Sys2Proof
end

