-- ==== Sys2Proof/Decode.lean ====
section
/-! DEFINITION. The decoder of 30_encoding.md, total on every byte string and rejecting by name; the decode cursor for
standalone use (R88, R90); the record of a decoded instruction (R85); and the encoder, written from the same formats
(R74 to R79). -/

namespace Sys2Proof

/-! ## Fields -/

/-- The `w` bit as a width (R86). -/
def Width.ofBit (b : Bool) : Width := if b then .word else .byte

/-- The `d` bit as a direction (R68). -/
def Dir.ofBit (b : Bool) : Dir := if b then .toReg else .toRm

/-- A 3-bit field as a register code (R63). -/
def regOf (f : BitVec 3) : RegCode := f.toFin

/-- The `rm` field as an effective-address mode (R66). -/
def EaMode.ofField (f : BitVec 3) : EaMode :=
  match f.toNat with
  | 0 => .bxSi
  | 1 => .bxDi
  | 2 => .bpSi
  | 3 => .bpDi
  | 4 => .si
  | 5 => .di
  | 6 => .bp
  | _ => .bx

/-- The ALU operation field: `kind(000) = Add; kind(101) = Sub; kind(111) = Cmp`, no other (R72, R82). -/
def AluKind.ofField (f : BitVec 3) : Option AluKind :=
  match f.toNat with
  | 0 => some .add
  | 5 => some .sub
  | 7 => some .cmp
  | _ => none

/-- `mod = b1[7:6]` (R62). -/
def modField (b1 : Byte) : BitVec 2 := b1.extractLsb' 6 2

/-- `reg = b1[5:3]`, in `80`, `81`, `83` the operation (R62, R72). -/
def regField (b1 : Byte) : BitVec 3 := b1.extractLsb' 3 3

/-- `rm = b1[2:0]` (R62). -/
def rmField (b1 : Byte) : BitVec 3 := b1.extractLsb' 0 3

/-! ## The opcode map -/

/-- The families of R61 and R80; the two ALU families whose operation stands in `b0` carry it. -/
inductive Family where
  | movRmReg
  | movRegImm
  | movRmImm
  | movAccMem
  | movMemAcc
  | aluRmReg (k : AluKind)
  | aluRmImm
  | aluAccImm (k : AluKind)
  | je
  | jne
  deriving DecidableEq, Repr

/-- One row of the opcode map: `b0` belongs to the row when `b0 AND mask = pattern`. -/
structure OpcodeRow where
  mask : Byte
  pattern : Byte
  family : Family
  deriving DecidableEq, Repr

/-- Whether an opcode byte belongs to a row. -/
def OpcodeRow.has (r : OpcodeRow) (b0 : Byte) : Bool := (b0 &&& r.mask) == r.pattern

/-- The opcode map of R80, in the priority order of R81. `82` is in no row (R70). -/
def opcodeRows : List OpcodeRow :=
  [ ⟨0xFC, 0x88, .movRmReg⟩,
    ⟨0xF0, 0xB0, .movRegImm⟩,
    ⟨0xFE, 0xC6, .movRmImm⟩,
    ⟨0xFE, 0xA0, .movAccMem⟩,
    ⟨0xFE, 0xA2, .movMemAcc⟩,
    ⟨0xFC, 0x00, .aluRmReg .add⟩,
    ⟨0xFC, 0x28, .aluRmReg .sub⟩,
    ⟨0xFC, 0x38, .aluRmReg .cmp⟩,
    ⟨0xFE, 0x80, .aluRmImm⟩,
    ⟨0xFF, 0x83, .aluRmImm⟩,
    ⟨0xFE, 0x04, .aluAccImm .add⟩,
    ⟨0xFE, 0x2C, .aluAccImm .sub⟩,
    ⟨0xFE, 0x3C, .aluAccImm .cmp⟩,
    ⟨0xFF, 0x74, .je⟩,
    ⟨0xFF, 0x75, .jne⟩ ]

/-- The family of an opcode byte; `none` for the 207 values R80 does not list. -/
def familyOf (b0 : Byte) : Option Family := (opcodeRows.find? (·.has b0)).map (·.family)

/-! ## Reading bytes -/

/-- Why decoding stops (R82, R87, R89). -/
inductive DecodeError where
  /-- `b0` is not accepted (R87 items 1 and 2); found after `Fetch(0)`. -/
  | unrecognizedOpcode (b0 : Byte)
  /-- `b0` is `80`, `81` or `83` and `b1[5:3]` no supported operation (R87 item 3); found after `Fetch(1)`. -/
  | unrecognizedOperation (b0 b1 : Byte)
  /-- `Fetch(k)` at or beyond the bound of the byte source (R88 to R90). -/
  | outOfBounds (k : Nat)
  deriving DecidableEq, Repr

/-- The cursor's pending length when decoding stops: the bytes read so far, never committed (R33, R82; log entry 4). -/
def DecodeError.pending : DecodeError → Nat
  | .unrecognizedOpcode _ => 1
  | .unrecognizedOperation _ _ => 2
  | .outOfBounds k => k

/-- The bytes from the cursor's position to the bound that are not yet read, and how many have been. -/
structure Reader where
  rest : List Byte
  len : Nat
  deriving DecidableEq, Repr

/-- `next8() = Fetch(len) and len <- len + 1` (R82). -/
def next8 (r : Reader) : Except DecodeError (Byte × Reader) :=
  match r.rest with
  | [] => .error (.outOfBounds r.len)
  | b :: bs => .ok (b, ⟨bs, r.len + 1⟩)

/-- `lo <- next8(); hi <- next8(); hi ++ lo`: `addr16()` and every other 16-bit field (R82, R46). -/
def next16 (r : Reader) : Except DecodeError (Word × Reader) := do
  let (lo, r) ← next8 r
  let (hi, r) ← next8 r
  pure (joinBytes lo hi, r)

/-- `imm_w()` (R69, R82). -/
def nextImm (w : Width) (r : Reader) : Except DecodeError (Imm × Reader) :=
  match w with
  | .byte => do
    let (v, r) ← next8 r
    pure (.imm8 v, r)
  | .word => do
    let (v, r) ← next16 r
    pure (.imm16 v, r)

/-- `rmop(mod, rm)` (R64 to R67, R82). -/
def nextRm (mod : BitVec 2) (rm : BitVec 3) (r : Reader) : Except DecodeError (RmOp × Reader) :=
  match mod.toNat with
  | 0 =>
    if rm = 6 then do
      let (a, r) ← next16 r
      pure (.mem (.direct a), r)
    else pure (.mem (.ea (EaMode.ofField rm) .none), r)
  | 1 => do
    let (v, r) ← next8 r
    pure (.mem (.ea (EaMode.ofField rm) (.d8 v)), r)
  | 2 => do
    let (v, r) ← next16 r
    pure (.mem (.ea (EaMode.ofField rm) (.d16 v)), r)
  | _ => pure (.reg (regOf rm), r)

/-! ## The decode algorithm -/

/-- The ALU r/m ← reg row of an operation (R153 to R155). -/
def aluRmRegInstr (k : AluKind) (d : Dir) (w : Width) (reg : RegCode) (rm : RmOp) : Instr :=
  match k with
  | .add => .addRmReg d w reg rm
  | .sub => .subRmReg d w reg rm
  | .cmp => .cmpRmReg d w reg rm

/-- The ALU acc ← imm row of an operation (R159 to R161). -/
def aluAccImmInstr (k : AluKind) (imm : Imm) : Instr :=
  match k with
  | .add => .addAccImm imm
  | .sub => .subAccImm imm
  | .cmp => .cmpAccImm imm

/-- The `80` row of an operation (R156 to R158). -/
def aluRmImm80Instr (k : AluKind) (rm : RmOp) (i8 : Byte) : Instr :=
  match k with
  | .add => .addRmImm80 rm i8
  | .sub => .subRmImm80 rm i8
  | .cmp => .cmpRmImm80 rm i8

/-- The `81` row of an operation (R156 to R158). -/
def aluRmImm81Instr (k : AluKind) (rm : RmOp) (i16 : Word) : Instr :=
  match k with
  | .add => .addRmImm81 rm i16
  | .sub => .subRmImm81 rm i16
  | .cmp => .cmpRmImm81 rm i16

/-- The `83` row of an operation (R156 to R158). -/
def aluRmImm83Instr (k : AluKind) (rm : RmOp) (i8 : Byte) : Instr :=
  match k with
  | .add => .addRmImm83 rm i8
  | .sub => .subRmImm83 rm i8
  | .cmp => .cmpRmImm83 rm i8

/-- The ALU r/m ← imm family after its operation is known: the immediate is assembled by `s` and `w` together (R70). -/
def decodeAluRmImm (s w : Bool) (k : AluKind) (rm : RmOp) (r : Reader) : Except DecodeError (Instr × Reader) :=
  if s then do
    let (v, r) ← next8 r
    pure (aluRmImm83Instr k rm v, r)
  else if w then do
    let (v, r) ← next16 r
    pure (aluRmImm81Instr k rm v, r)
  else do
    let (v, r) ← next8 r
    pure (aluRmImm80Instr k rm v, r)

/-- The bytes after `b0`, family by family (R82). -/
def decodeFamily (f : Family) (b0 : Byte) (r : Reader) : Except DecodeError (Instr × Reader) :=
  match f with
  | .movRmReg => do
    let (b1, r) ← next8 r
    let (rm, r) ← nextRm (modField b1) (rmField b1) r
    pure (.movRmReg (Dir.ofBit (b0.getLsbD 1)) (Width.ofBit (b0.getLsbD 0)) (regOf (regField b1)) rm, r)
  | .movRegImm => do
    let (imm, r) ← nextImm (Width.ofBit (b0.getLsbD 3)) r
    pure (.movRegImm (regOf (b0.extractLsb' 0 3)) imm, r)
  | .movRmImm => do
    let (b1, r) ← next8 r
    let (rm, r) ← nextRm (modField b1) (rmField b1) r
    let (imm, r) ← nextImm (Width.ofBit (b0.getLsbD 0)) r
    pure (.movRmImm rm imm, r)
  | .movAccMem => do
    let (a, r) ← next16 r
    pure (.movAccMem (Width.ofBit (b0.getLsbD 0)) a, r)
  | .movMemAcc => do
    let (a, r) ← next16 r
    pure (.movMemAcc (Width.ofBit (b0.getLsbD 0)) a, r)
  | .aluRmReg k => do
    let (b1, r) ← next8 r
    let (rm, r) ← nextRm (modField b1) (rmField b1) r
    pure (aluRmRegInstr k (Dir.ofBit (b0.getLsbD 1)) (Width.ofBit (b0.getLsbD 0)) (regOf (regField b1)) rm, r)
  | .aluRmImm => do
    let (b1, r) ← next8 r
    match AluKind.ofField (regField b1) with
    | none => .error (.unrecognizedOperation b0 b1)
    | some k => do
      let (rm, r) ← nextRm (modField b1) (rmField b1) r
      decodeAluRmImm (b0.getLsbD 1) (b0.getLsbD 0) k rm r
  | .aluAccImm k => do
    let (imm, r) ← nextImm (Width.ofBit (b0.getLsbD 0)) r
    pure (aluAccImmInstr k imm, r)
  | .je => do
    let (v, r) ← next8 r
    pure (.je v, r)
  | .jne => do
    let (v, r) ← next8 r
    pure (.jne v, r)

/-- `decode()` of R82 over the bytes from the cursor's position to its bound: the instruction and its length, or the first
fault met. -/
def decode (bs : List Byte) : Except DecodeError (Instr × Nat) := do
  let (b0, r) ← next8 ⟨bs, 0⟩
  match familyOf b0 with
  | none => .error (.unrecognizedOpcode b0)
  | some f => do
    let (i, r) ← decodeFamily f b0 r
    pure (i, r.len)

/-! ## The cursor of standalone decoding -/

/-- The decode cursor of R88: a position in a byte source and a pending length. -/
structure Cursor where
  position : Nat
  pending : Nat
  deriving DecidableEq, Repr

/-- `byteAt(offset)`: the byte at `position + offset`; `none` is the OutOfBounds condition (R88, R90). -/
def Cursor.byteAt (src : List Byte) (c : Cursor) (offset : Nat) : Option Byte := src[c.position + offset]?

/-- `extend(n)` (R88). -/
def Cursor.extend (c : Cursor) (n : Nat) : Cursor := { c with pending := c.pending + n }

/-- `commit()`: the new cursor, and whether bytes remain (R88). -/
def Cursor.commit (src : List Byte) (c : Cursor) : Cursor × Bool :=
  (⟨c.position + c.pending, 0⟩, decide (c.position + c.pending < src.length))

/-- `pendingLength()` (R88). -/
def Cursor.pendingLength (c : Cursor) : Nat := c.pending

/-- `decode(src, pos)` of R6 through a cursor at the start of an instruction: on success the pending length is the
instruction's (R88, R90). -/
def Cursor.decode (src : List Byte) (c : Cursor) : Except DecodeError (Instr × Cursor) :=
  match Sys2Proof.decode (src.drop c.position) with
  | .error e => .error e
  | .ok (i, len) => .ok (i, ({ c with pending := 0 } : Cursor).extend len)

/-! ## The decoder's output record -/

/-- An r/m operand as a location of a record (R85). -/
def RmOp.loc : RmOp → Loc
  | .reg c => .reg c
  | .mem m => .mem m

/-- The destination and the source that `d` selects (R68). -/
def Dir.operands (d : Dir) (reg : RegCode) (rm : RmOp) : Loc × Loc :=
  match d with
  | .toReg => (.reg reg, rm.loc)
  | .toRm => (rm.loc, .reg reg)

/-- The record an instruction is (R82, R85). -/
def Instr.record : Instr → Record
  | .movRmReg d w reg rm => .mov w (d.operands reg rm).1 (d.operands reg rm).2
  | .movRegImm reg imm => .mov imm.width (.reg reg) (.imm imm.value)
  | .movRmImm rm imm => .mov imm.width rm.loc (.imm imm.value)
  | .movAccMem w a => .mov w (.reg 0) (.mem (.direct a))
  | .movMemAcc w a => .mov w (.mem (.direct a)) (.reg 0)
  | .addRmReg d w reg rm => .op .add w (d.operands reg rm).1 (d.operands reg rm).2
  | .subRmReg d w reg rm => .op .sub w (d.operands reg rm).1 (d.operands reg rm).2
  | .cmpRmReg d w reg rm => .op .cmp w (d.operands reg rm).1 (d.operands reg rm).2
  | .addRmImm80 rm v => .op .add .byte rm.loc (.imm (zext16 v))
  | .addRmImm81 rm v => .op .add .word rm.loc (.imm v)
  | .addRmImm83 rm v => .op .add .word rm.loc (.imm (sext16 v))
  | .subRmImm80 rm v => .op .sub .byte rm.loc (.imm (zext16 v))
  | .subRmImm81 rm v => .op .sub .word rm.loc (.imm v)
  | .subRmImm83 rm v => .op .sub .word rm.loc (.imm (sext16 v))
  | .cmpRmImm80 rm v => .op .cmp .byte rm.loc (.imm (zext16 v))
  | .cmpRmImm81 rm v => .op .cmp .word rm.loc (.imm v)
  | .cmpRmImm83 rm v => .op .cmp .word rm.loc (.imm (sext16 v))
  | .addAccImm imm => .op .add imm.width (.reg 0) (.imm imm.value)
  | .subAccImm imm => .op .sub imm.width (.reg 0) (.imm imm.value)
  | .cmpAccImm imm => .op .cmp imm.width (.reg 0) (.imm imm.value)
  | .je v => .je v
  | .jne v => .jne v

/-! ## The encoder -/

/-- The `w` bit of a width (R86). -/
def Width.bit : Width → BitVec 1
  | .byte => 0
  | .word => 1

/-- The `d` bit of a direction (R68). -/
def Dir.bit : Dir → BitVec 1
  | .toRm => 0
  | .toReg => 1

/-- A register code as a 3-bit field (R63). -/
def regBits (c : RegCode) : BitVec 3 := BitVec.ofFin c

/-- The `rm` field of an effective-address mode (R66). -/
def EaMode.bits : EaMode → BitVec 3
  | .bxSi => 0
  | .bxDi => 1
  | .bpSi => 2
  | .bpDi => 3
  | .si => 4
  | .di => 5
  | .bp => 6
  | .bx => 7

/-- The operation field (R72). -/
def AluKind.bits : AluKind → BitVec 3
  | .add => 0
  | .sub => 5
  | .cmp => 7

/-- The `mod` field of an r/m operand (R64, R65, R67). -/
def RmOp.modBits : RmOp → BitVec 2
  | .reg _ => 3
  | .mem (.direct _) => 0
  | .mem (.ea _ .none) => 0
  | .mem (.ea _ (.d8 _)) => 1
  | .mem (.ea _ (.d16 _)) => 2

/-- The `rm` field of an r/m operand (R64 to R66). -/
def RmOp.rmBits : RmOp → BitVec 3
  | .reg c => regBits c
  | .mem (.direct _) => 6
  | .mem (.ea m _) => m.bits

/-- A 16-bit field in the instruction, low byte first (R46). -/
def wordBytes (v : Word) : List Byte := [lowByte v, highByte v]

/-- The displacement or address bytes of an r/m operand (R65, R67). -/
def RmOp.tail : RmOp → List Byte
  | .reg _ => []
  | .mem (.direct a) => wordBytes a
  | .mem (.ea _ .none) => []
  | .mem (.ea _ (.d8 v)) => [v]
  | .mem (.ea _ (.d16 v)) => wordBytes v

/-- The ModRM byte `MMRRRmmm` and the bytes it asks for (R62, R75, R76). -/
def RmOp.bytes (rm : RmOp) (reg : BitVec 3) : List Byte :=
  (rm.modBits ++ reg ++ rm.rmBits : BitVec 8) :: rm.tail

/-- The bytes of an immediate (R69). -/
def Imm.bytes : Imm → List Byte
  | .imm8 v => [v]
  | .imm16 v => wordBytes v

/-- `00ooo0dw` and ModRM (R75). -/
def encodeAluRmReg (k : AluKind) (d : Dir) (w : Width) (reg : RegCode) (rm : RmOp) : List Byte :=
  (0#2 ++ k.bits ++ 0#1 ++ d.bit ++ w.bit : BitVec 8) :: rm.bytes (regBits reg)

/-- `00ooo10w` and the immediate (R78). -/
def encodeAluAccImm (k : AluKind) (imm : Imm) : List Byte :=
  (0#2 ++ k.bits ++ 2#2 ++ imm.width.bit : BitVec 8) :: imm.bytes

/-- The bytes of an instruction, in address order (R74 to R79). In `C6`/`C7` the ignored `reg` field is encoded as 000
(R93; log entry 9). -/
def encode : Instr → List Byte
  | .movRmReg d w reg rm => (0b100010#6 ++ d.bit ++ w.bit : BitVec 8) :: rm.bytes (regBits reg)
  | .movRegImm reg imm => (0b1011#4 ++ imm.width.bit ++ regBits reg : BitVec 8) :: imm.bytes
  | .movRmImm rm imm => (0b1100011#7 ++ imm.width.bit : BitVec 8) :: (rm.bytes 0 ++ imm.bytes)
  | .movAccMem w a => (0b1010000#7 ++ w.bit : BitVec 8) :: wordBytes a
  | .movMemAcc w a => (0b1010001#7 ++ w.bit : BitVec 8) :: wordBytes a
  | .addRmReg d w reg rm => encodeAluRmReg .add d w reg rm
  | .subRmReg d w reg rm => encodeAluRmReg .sub d w reg rm
  | .cmpRmReg d w reg rm => encodeAluRmReg .cmp d w reg rm
  | .addRmImm80 rm v => 0x80 :: (rm.bytes AluKind.add.bits ++ [v])
  | .addRmImm81 rm v => 0x81 :: (rm.bytes AluKind.add.bits ++ wordBytes v)
  | .addRmImm83 rm v => 0x83 :: (rm.bytes AluKind.add.bits ++ [v])
  | .subRmImm80 rm v => 0x80 :: (rm.bytes AluKind.sub.bits ++ [v])
  | .subRmImm81 rm v => 0x81 :: (rm.bytes AluKind.sub.bits ++ wordBytes v)
  | .subRmImm83 rm v => 0x83 :: (rm.bytes AluKind.sub.bits ++ [v])
  | .cmpRmImm80 rm v => 0x80 :: (rm.bytes AluKind.cmp.bits ++ [v])
  | .cmpRmImm81 rm v => 0x81 :: (rm.bytes AluKind.cmp.bits ++ wordBytes v)
  | .cmpRmImm83 rm v => 0x83 :: (rm.bytes AluKind.cmp.bits ++ [v])
  | .addAccImm imm => encodeAluAccImm .add imm
  | .subAccImm imm => encodeAluAccImm .sub imm
  | .cmpAccImm imm => encodeAluAccImm .cmp imm
  | .je v => [0x74, v]
  | .jne v => [0x75, v]

/-! ## Words as the opcode table numbers them -/

/-- Byte `k` of a number, counted from its least significant byte. -/
def numByte (w k : Nat) : Byte := BitVec.ofNat 8 (w >>> (8 * k))

/-- The bytes, in address order and padded with zeros to the longest instruction, of a word as spec/opcode_table.json
numbers it. A row matched over `b0` numbers `b0` from its bit 0; a row matched over `b0b1` (the rows of `80`, `81`, `83`) is
the number `b0 ++ b1`, so its `b0` is bits 15..8. Any other word has its first byte lowest (log entry 5). -/
def tableBytes (nbits w : Nat) : List Byte :=
  let v := w % 2 ^ nbits
  if nbits = 16 ∧ (numByte v 1 = 0x80 ∨ numByte v 1 = 0x81 ∨ numByte v 1 = 0x83) then
    [numByte v 1, numByte v 0, 0, 0, 0, 0]
  else
    [numByte v 0, numByte v 1, numByte v 2, numByte v 3, numByte v 4, numByte v 5]

/-- The instruction the decoder reads from a word of the opcode table. -/
def decodeTableWord (nbits w : Nat) : Option Instr :=
  match decode (tableBytes nbits w) with
  | .ok (i, _) => some i
  | .error _ => none

end Sys2Proof
end

