-- ==== Sys2Proof/Machine/Ops.lean ====
section
/-! DEFINITION. The named operations over registers and memory, fault entry (R190), and the sequencer's operations around an
instruction (R110): fetching, the `ip` advance, the end of a run, counting. -/

namespace Sys2Proof.Machine

/-! ## Registers -/

/-- Read `x[i]` (R10, R21). -/
def State.x (s : State) (i : RegCode) : Word := s.regs[i]

/-- `x[i] <- v` (R10, R23): all 16 bits. No register is hardwired (R24). -/
def State.setX (s : State) (i : RegCode) (v : Word) : State := { s with regs := s.regs.set i v }

/-- The word register that holds byte register `i`: `x[i]` for 0..3, `x[i-4]` for 4..7 (R22). -/
def byteHome (i : RegCode) : RegCode := ⟨i.val % 4, by omega⟩

/-- Read `xb[i]` (R22). -/
def State.xb (s : State) (i : RegCode) : Byte :=
  if i.val < 4 then lowByte (s.x (byteHome i)) else highByte (s.x (byteHome i))

/-- `xb[i] <- v`: the other half of the word register is kept (R23). -/
def State.setXb (s : State) (i : RegCode) (v : Byte) : State :=
  if i.val < 4 then s.setX (byteHome i) (joinBytes v (highByte (s.x (byteHome i))))
  else s.setX (byteHome i) (joinBytes (lowByte (s.x (byteHome i))) v)

/-! ## Memory, one byte -/

/-- `mem[a]`; an unlisted address reads as 0 (R35, R50). -/
def Memory.read : Memory → Nat → Byte
  | [], _ => 0
  | (b, v) :: m, a => if a = b then v else Memory.read m a

/-- The cells other than address `a`'s. -/
def Memory.dropCell (a : Nat) : Memory → Memory
  | [] => []
  | (b, v) :: m => if b = a then Memory.dropCell a m else (b, v) :: Memory.dropCell a m

/-- A cell put in front of the first higher address. -/
def Memory.putCell (a : Nat) (v : Byte) : Memory → Memory
  | [] => [(a, v)]
  | (b, u) :: m => if a < b then (a, v) :: (b, u) :: m else (b, u) :: Memory.putCell a v m

/-- `mem[a] <- v`, keeping the canonical form: writing 0, which an unlisted address reads as, removes the cell. -/
def Memory.write (m : Memory) (a : Nat) (v : Byte) : Memory :=
  if v = 0 then m.dropCell a else (m.dropCell a).putCell a v

/-! ## Faults -/

/-- `code(kind)` (R191). -/
def FaultKind.code : FaultKind → Nat
  | .unrecognizedOpcode => 1
  | .outOfBounds => 2
  | .invalidOperand => 3
  | .unknownRegister => 4

/-- What `raise Fault(kind, info)` is given (R190). -/
structure Cause where
  kind : FaultKind
  info : FaultInfo
  deriving DecidableEq, Repr

/-- The `OutOfBounds` fault with the first out-of-range address (R193). -/
def outOfBoundsAt (addr : Int) : Cause := ⟨.outOfBounds, .address addr⟩

/-- The `InvalidOperand` fault of a write to an immediate (R114, R194). -/
def writeToImmediate : Cause := ⟨.invalidOperand, .operand "write to immediate"⟩

/-- `raise Fault(kind, info)`: fault entry (R190). The record takes `ip` and `n` as they are; the rest of the step is not
executed, so nothing else changes. There is no return from it (R199). -/
def State.raise (s : State) (c : Cause) : State :=
  { s with
    fault := some { kind := c.kind, code := c.kind.code, info := c.info, ipAtDetection := s.ip, ordinal := s.n }
    status := .faulted }

/-- The cause of a fault met in decoding, with the cursor at `position` (R82, R88, R192, R193). -/
def causeOfDecode (position : Nat) (e : DecodeError) : Cause :=
  match e with
  | .unrecognizedOpcode b0 => ⟨.unrecognizedOpcode, .opcode b0⟩
  | .unrecognizedOperation b0 b1 => ⟨.unrecognizedOpcode, .operation b0 b1⟩
  | .outOfBounds k => outOfBoundsAt (position + k : Nat)

/-! ## Memory, at an operand's width -/

/-- `MemRead(a, W/8)`, little-endian (R42). A word at `0xFFFF` needs byte `0x10000` and faults (R44). -/
def memRead (m : Memory) (w : Width) (a : Word) : Except Cause Word :=
  match w with
  | .byte => .ok (zext16 (m.read a.toNat))
  | .word =>
    if a.toNat + 1 ≤ 0xFFFF then .ok (joinBytes (m.read a.toNat) (m.read (a.toNat + 1)))
    else .error (outOfBoundsAt (a.toNat + 1 : Nat))

/-- `MemWrite(a, W/8, v)`, little-endian (R43); the check is made before either byte is written (R44). -/
def memWrite (m : Memory) (w : Width) (a : Word) (v : Word) : Except Cause Memory :=
  match w with
  | .byte => .ok (m.write a.toNat (lowByte v))
  | .word =>
    if a.toNat + 1 ≤ 0xFFFF then .ok ((m.write a.toNat (lowByte v)).write (a.toNat + 1) (highByte v))
    else .error (outOfBoundsAt (a.toNat + 1 : Nat))

/-! ## The sequencer -/

/-- The bytes the simulator's cursor can fetch from `ip`: live memory up to the bound 65536 (R46, R56, R89), no more than the
longest instruction has (R84). The decoder takes from them what it needs (log entry 10). -/
def State.fetchBytes (s : State) : List Byte :=
  (List.range (min Config.maxInstrLen (Config.memSize - s.ip.toNat))).map (fun k => s.mem.read (s.ip.toNat + k))

/-- The end of a run: nothing but `status` changes (R110, R111). -/
def State.halt (s : State) : State := { s with status := .halted }

/-- A fault in decoding: the cursor stays uncommitted, with the bytes read so far pending (R82, R33). -/
def State.raiseDecode (s : State) (e : DecodeError) : State :=
  ({ s with pending := e.pending } : State).raise (causeOfDecode s.ip.toNat e)

/-- The `ip` advance would leave 16 bits: a fault before the commit (R110, R193; decision D4). -/
def State.raiseAdvance (s : State) (len : Nat) : State :=
  ({ s with pending := len } : State).raise (outOfBoundsAt (s.ip.toNat + len : Nat))

/-- The commit: `ip` holds the next instruction's address, no bytes are pending (R110, R88). -/
def State.advance (s : State) (len : Nat) : State :=
  { s with ip := BitVec.ofNat 16 (s.ip.toNat + len), pending := 0 }

/-- The step up to `execute(I)`: either the step's outcome, or the instruction and the state it is executed in (R110). -/
def State.fetchDecode (s : State) : Except Result (Instr × State) :=
  match s.status with
  | .halted => .error (.fault .noStepHalted)
  | .faulted => .error (.fault .noStepFaulted)
  | .running =>
    if s.progLen ≤ s.ip.toNat then .error (.next s.halt)
    else
      match decode s.fetchBytes with
      | .error e => .error (.next (s.raiseDecode e))
      | .ok (i, len) =>
        if s.ip.toNat + len ≤ 0xFFFF then .ok (i, s.advance len)
        else .error (.next (s.raiseAdvance len))

/-- `n <- n + 1` after an instruction that raised no fault (R110, R117). -/
def State.complete (s : State) : State :=
  if s.status = .faulted then s else { s with n := s.n + 1 }

/-- The step after `execute(I)` (R110). -/
def retire (r : Result) : Result :=
  match r with
  | .next s => .next s.complete
  | .fault f => .fault f
  | .refused f => .refused f

/-- Bytes stored at consecutive addresses, as far as memory reaches. -/
def Memory.place (m : Memory) (a : Nat) : List Byte → Memory
  | [] => m
  | b :: bs => Memory.place (if a < Config.memSize then m.write a b else m) (a + 1) bs

end Sys2Proof.Machine
end

