-- ==== Sys2Proof/Machine/Operands.lean ====
section
/-! DEFINITION. Operand access: effective addresses (R112), `ReadOp` (R113) and `WriteOp` (R114) of 40_execution_cycle.md. -/

namespace Sys2Proof.Machine

/-- `base(mode)` (R66, R112), modulo 2^16. -/
def State.base (s : State) (m : EaMode) : Word :=
  match m with
  | .bxSi => s.x 3 + s.x 6
  | .bxDi => s.x 3 + s.x 7
  | .bpSi => s.x 5 + s.x 6
  | .bpDi => s.x 5 + s.x 7
  | .si => s.x 6
  | .di => s.x 7
  | .bp => s.x 5
  | .bx => s.x 3

/-- The value a displacement adds (R67). -/
def Disp.value : Disp → Word
  | .none => 0
  | .d8 v => sext16 v
  | .d16 v => v

/-- `EA(m)`, wrapping modulo 2^16 (R112). -/
def State.ea (s : State) (m : MemOp) : Word :=
  match m with
  | .direct a => a
  | .ea mode d => s.base mode + Disp.value d

/-- `Reg(W, i)` read at width `W` (R113). -/
def State.readReg (s : State) (w : Width) (i : RegCode) : Word :=
  match w with
  | .byte => zext16 (s.xb i)
  | .word => s.x i

/-- `Reg(W, i)` written at width `W` (R114, R23). -/
def State.writeReg (s : State) (w : Width) (i : RegCode) (v : Word) : State :=
  match w with
  | .byte => s.setXb i (lowByte v)
  | .word => s.setX i v

/-- `ReadOp(W, loc)` (R113). -/
def State.readOp (s : State) (w : Width) (l : Loc) : Except Cause Word :=
  match l with
  | .reg i => .ok (s.readReg w i)
  | .imm v => .ok v
  | .mem m => memRead s.mem w (s.ea m)

/-- `WriteOp(W, loc, v)` (R114). -/
def State.writeOp (s : State) (w : Width) (l : Loc) (v : Word) : Except Cause State :=
  match l with
  | .reg i => .ok (s.writeReg w i v)
  | .imm _ => .error writeToImmediate
  | .mem m =>
    match memWrite s.mem w (s.ea m) v with
    | .ok mem => .ok { s with mem := mem }
    | .error c => .error c

end Sys2Proof.Machine
end

