-- ==== Sys2Proof/Machine/Arithmetic.lean ====
section
/-! DEFINITION. ADD, SUB and CMP, the fifteen rows of 42_arithmetic.md, over the one shared ALU operation of R150. -/

namespace Sys2Proof.Machine

/-- The result of the ALU, modulo `2^W` (R150, R151). -/
def aluResult (k : AluKind) (w : Width) (a b : Word) : Word :=
  match k with
  | .add => w.trunc (a + b)
  | .sub => w.trunc (a - b)
  | .cmp => w.trunc (a - b)

/-- The end of `ALU(K, W, dst, src)`: "if K != Cmp: WriteOp(W, dst, r)" (R150). -/
def aluWriteBack (k : AluKind) (w : Width) (dst : Loc) (r : Word) (s : State) : Result :=
  match k with
  | .cmp => .next s
  | .add =>
    match s.writeOp w dst r with
    | .error c => .next (s.raise c)
    | .ok t => .next t
  | .sub =>
    match s.writeOp w dst r with
    | .error c => .next (s.raise c)
    | .ok t => .next t

/-- `ALU(K, W, dst, src)` (R150): destination read, source read, flags, write-back, in that order. -/
def alu (k : AluKind) (w : Width) (dst src : Loc) (s : State) : Result :=
  match s.readOp w dst with
  | .error c => .next (s.raise c)
  | .ok a =>
    match s.readOp w src with
    | .error c => .next (s.raise c)
    | .ok b => aluWriteBack k w dst (aluResult k w a b) (s.setZS w (aluResult k w a b))

/-- ADD r/m, reg and ADD reg, r/m (R153). -/
def execAddRmReg (d : Dir) (w : Width) (reg : RegCode) (rm : RmOp) (s : State) : Result :=
  alu .add w (d.operands reg rm).1 (d.operands reg rm).2 s

/-- SUB r/m, reg and SUB reg, r/m (R154). -/
def execSubRmReg (d : Dir) (w : Width) (reg : RegCode) (rm : RmOp) (s : State) : Result :=
  alu .sub w (d.operands reg rm).1 (d.operands reg rm).2 s

/-- CMP r/m, reg and CMP reg, r/m (R155). -/
def execCmpRmReg (d : Dir) (w : Width) (reg : RegCode) (rm : RmOp) (s : State) : Result :=
  alu .cmp w (d.operands reg rm).1 (d.operands reg rm).2 s

/-- ADD r/m, imm with opcode `80` (R156). -/
def execAddRmImm80 (rm : RmOp) (i8 : Byte) (s : State) : Result :=
  alu .add .byte rm.loc (.imm (zext16 i8)) s

/-- ADD r/m, imm with opcode `81` (R156). -/
def execAddRmImm81 (rm : RmOp) (i16 : Word) (s : State) : Result :=
  alu .add .word rm.loc (.imm i16) s

/-- ADD r/m, imm with opcode `83`, the byte sign-extended (R156, R70). -/
def execAddRmImm83 (rm : RmOp) (i8 : Byte) (s : State) : Result :=
  alu .add .word rm.loc (.imm (sext16 i8)) s

/-- SUB r/m, imm with opcode `80` (R157). -/
def execSubRmImm80 (rm : RmOp) (i8 : Byte) (s : State) : Result :=
  alu .sub .byte rm.loc (.imm (zext16 i8)) s

/-- SUB r/m, imm with opcode `81` (R157). -/
def execSubRmImm81 (rm : RmOp) (i16 : Word) (s : State) : Result :=
  alu .sub .word rm.loc (.imm i16) s

/-- SUB r/m, imm with opcode `83`, the byte sign-extended (R157, R70). -/
def execSubRmImm83 (rm : RmOp) (i8 : Byte) (s : State) : Result :=
  alu .sub .word rm.loc (.imm (sext16 i8)) s

/-- CMP r/m, imm with opcode `80` (R158). -/
def execCmpRmImm80 (rm : RmOp) (i8 : Byte) (s : State) : Result :=
  alu .cmp .byte rm.loc (.imm (zext16 i8)) s

/-- CMP r/m, imm with opcode `81` (R158). -/
def execCmpRmImm81 (rm : RmOp) (i16 : Word) (s : State) : Result :=
  alu .cmp .word rm.loc (.imm i16) s

/-- CMP r/m, imm with opcode `83`, the byte sign-extended (R158, R70). -/
def execCmpRmImm83 (rm : RmOp) (i8 : Byte) (s : State) : Result :=
  alu .cmp .word rm.loc (.imm (sext16 i8)) s

/-- ADD acc, imm (R159). -/
def execAddAccImm (imm : Imm) (s : State) : Result :=
  alu .add imm.width (.reg 0) (.imm imm.value) s

/-- SUB acc, imm (R160). -/
def execSubAccImm (imm : Imm) (s : State) : Result :=
  alu .sub imm.width (.reg 0) (.imm imm.value) s

/-- CMP acc, imm (R161). -/
def execCmpAccImm (imm : Imm) (s : State) : Result :=
  alu .cmp imm.width (.reg 0) (.imm imm.value) s

end Sys2Proof.Machine
end

