-- ==== Sys2Proof/Machine/Branch.lean ====
section
/-! DEFINITION. JE and JNE (43_branch.md). -/

namespace Sys2Proof.Machine

/-- The target of a taken jump, an integer: `ip + signed_8(d8)`, `ip` being the next instruction's address (R180). -/
def jumpTarget (ip : Word) (d8 : Byte) : Int := ip.toNat + signed8 d8

/-- A taken jump (R180): a target outside `0..0xFFFF` faults, it does not wrap (decision D4). -/
def jump (d8 : Byte) (s : State) : Result :=
  if 0 ≤ jumpTarget s.ip d8 ∧ jumpTarget s.ip d8 ≤ 0xFFFF then
    .next { s with ip := BitVec.ofInt 16 (jumpTarget s.ip d8) }
  else .next (s.raise (outOfBoundsAt (jumpTarget s.ip d8)))

/-- JE: taken if `zf = 1` (R181). -/
def execJe (d8 : Byte) (s : State) : Result :=
  if s.zf then jump d8 s else .next s

/-- JNE: taken if `zf = 0` (R182). -/
def execJne (d8 : Byte) (s : State) : Result :=
  if s.zf then .next s else jump d8 s

end Sys2Proof.Machine
end

