-- ==== Sys2Proof/Machine/DataMove.lean ====
section
/-! DEFINITION. MOV, the five forms of 41_data_move.md. -/

namespace Sys2Proof.Machine

/-- `v <- ReadOp(W, src); WriteOp(W, dst, v)`; no flag is written (R130). -/
def mov (w : Width) (dst src : Loc) (s : State) : Result :=
  match s.readOp w src with
  | .error c => .next (s.raise c)
  | .ok v =>
    match s.writeOp w dst v with
    | .error c => .next (s.raise c)
    | .ok t => .next t

/-- MOV r/m, reg and MOV reg, r/m (R131). -/
def execMovRmReg (d : Dir) (w : Width) (reg : RegCode) (rm : RmOp) (s : State) : Result :=
  mov w (d.operands reg rm).1 (d.operands reg rm).2 s

/-- MOV reg, imm (R132). -/
def execMovRegImm (reg : RegCode) (imm : Imm) (s : State) : Result :=
  mov imm.width (.reg reg) (.imm imm.value) s

/-- MOV r/m, imm (R133). -/
def execMovRmImm (rm : RmOp) (imm : Imm) (s : State) : Result :=
  mov imm.width rm.loc (.imm imm.value) s

/-- MOV acc, [addr] (R134). -/
def execMovAccMem (w : Width) (addr : Word) (s : State) : Result :=
  mov w (.reg 0) (.mem (.direct addr)) s

/-- MOV [addr], acc (R135). -/
def execMovMemAcc (w : Width) (addr : Word) (s : State) : Result :=
  mov w (.mem (.direct addr)) (.reg 0) s

end Sys2Proof.Machine
end

