-- ==== Sys2Proof/Machine/Dispatch.lean ====
section
/-! DEFINITION. `execute(I)` of R110: one arm per row of spec/opcode_table.json. -/

namespace Sys2Proof.Machine

def exec (i : Instr) (s : State) : Host.Outcome State Fault Refusal :=
  match i with
  | .movRmReg d w reg rm => Sys2Proof.Machine.execMovRmReg d w reg rm s
  | .movRegImm reg imm => Sys2Proof.Machine.execMovRegImm reg imm s
  | .movRmImm rm imm => Sys2Proof.Machine.execMovRmImm rm imm s
  | .movAccMem w addr => Sys2Proof.Machine.execMovAccMem w addr s
  | .movMemAcc w addr => Sys2Proof.Machine.execMovMemAcc w addr s
  | .addRmReg d w reg rm => Sys2Proof.Machine.execAddRmReg d w reg rm s
  | .subRmReg d w reg rm => Sys2Proof.Machine.execSubRmReg d w reg rm s
  | .cmpRmReg d w reg rm => Sys2Proof.Machine.execCmpRmReg d w reg rm s
  | .addRmImm80 rm i8 => Sys2Proof.Machine.execAddRmImm80 rm i8 s
  | .addRmImm81 rm i16 => Sys2Proof.Machine.execAddRmImm81 rm i16 s
  | .addRmImm83 rm i8 => Sys2Proof.Machine.execAddRmImm83 rm i8 s
  | .subRmImm80 rm i8 => Sys2Proof.Machine.execSubRmImm80 rm i8 s
  | .subRmImm81 rm i16 => Sys2Proof.Machine.execSubRmImm81 rm i16 s
  | .subRmImm83 rm i8 => Sys2Proof.Machine.execSubRmImm83 rm i8 s
  | .cmpRmImm80 rm i8 => Sys2Proof.Machine.execCmpRmImm80 rm i8 s
  | .cmpRmImm81 rm i16 => Sys2Proof.Machine.execCmpRmImm81 rm i16 s
  | .cmpRmImm83 rm i8 => Sys2Proof.Machine.execCmpRmImm83 rm i8 s
  | .addAccImm imm => Sys2Proof.Machine.execAddAccImm imm s
  | .subAccImm imm => Sys2Proof.Machine.execSubAccImm imm s
  | .cmpAccImm imm => Sys2Proof.Machine.execCmpAccImm imm s
  | .je d8 => Sys2Proof.Machine.execJe d8 s
  | .jne d8 => Sys2Proof.Machine.execJne d8 s

end Sys2Proof.Machine
end

