-- ==== Sys2Proof/Machine/Step.lean ====
section
/-! DEFINITION. One step of the block (R110), over the sequencer's operations of Ops.lean; and the host's way to place an
instruction where the next step fetches it. -/

namespace Sys2Proof.Machine

/-- `step()` (R110): end of run, decode, advance, execute, count. A fault is a next state with `status = Faulted` (R190). -/
def step (s : State) : Host.Outcome State Fault Refusal :=
  match s.fetchDecode with
  | .error r => r
  | .ok (i, t) => retire (exec i t)

/-- `s` with a word of the opcode table loaded at `ip`, as `load` would place it: the bytes, and what a step needs to run
them (a program length that reaches past them, and a running block). It stands for the load of R220 (log entries 3 and 5). -/
def State.withFetchWord (s : State) (nbits w : Nat) : State :=
  { s with
    mem := s.mem.place s.ip.toNat (tableBytes nbits w)
    progLen := max s.progLen (min Config.maxImage (s.ip.toNat + Config.maxInstrLen))
    status := .running
    fault := none
    pending := 0 }

end Sys2Proof.Machine
end

