-- ==== Sys2Proof/Machine/Listing.lean ====
section
/-! DEFINITION. Standalone use of the decoder: the disassembler of R100 over a read-only buffer, and the text of an
instruction (R94 to R99), which R4 puts outside the core and which no rule of the machine depends on (log entry 11). -/

namespace Sys2Proof.Machine

/-- The names of the word registers (R21, R95). -/
def wordRegName (i : RegCode) : String :=
  match i.val with
  | 0 => "ax"
  | 1 => "cx"
  | 2 => "dx"
  | 3 => "bx"
  | 4 => "sp"
  | 5 => "bp"
  | 6 => "si"
  | _ => "di"

/-- The names of the byte registers (R22, R95). -/
def byteRegName (i : RegCode) : String :=
  match i.val with
  | 0 => "al"
  | 1 => "cl"
  | 2 => "dl"
  | 3 => "bl"
  | 4 => "ah"
  | 5 => "ch"
  | 6 => "dh"
  | _ => "bh"

/-- A register operand's text (R95). -/
def regText (w : Width) (i : RegCode) : String :=
  match w with
  | .byte => byteRegName i
  | .word => wordRegName i

/-- The spelling of an effective-address mode (R66, R96). -/
def modeText : EaMode → String
  | .bxSi => "bx + si"
  | .bxDi => "bx + di"
  | .bpSi => "bp + si"
  | .bpDi => "bp + di"
  | .si => "si"
  | .di => "di"
  | .bp => "bp"
  | .bx => "bx"

/-- `+ N` or `- N` of a signed displacement (R96). -/
def offsetText (v : Int) : String :=
  if 0 ≤ v then " + " ++ toString v.toNat else " - " ++ toString (-v).toNat

/-- A displacement's text; a zero 8-bit displacement is ` + 0` (R96). -/
def dispText : Disp → String
  | .none => ""
  | .d8 v => offsetText (signed8 v)
  | .d16 v => offsetText (signed16 v)

/-- A memory operand's text, in square brackets (R96). -/
def memText : MemOp → String
  | .direct a => "[" ++ toString a.toNat ++ "]"
  | .ea m d => "[" ++ modeText m ++ dispText d ++ "]"

/-- `byte` or `word` before an immediate whose destination is memory (R97). -/
def widthPrefix (w : Width) (dst : Loc) : String :=
  match dst with
  | .reg _ => ""
  | .imm _ => ""
  | .mem _ =>
    match w with
    | .byte => "byte "
    | .word => "word "

/-- An operand's text; an immediate is unsigned decimal at its width (R95 to R97). -/
def locText (w : Width) (l : Loc) : String :=
  match l with
  | .reg i => regText w i
  | .mem m => memText m
  | .imm v => toString v.toNat

/-- A source operand's text, with the prefix an immediate may need (R97). -/
def srcText (w : Width) (dst src : Loc) : String :=
  match src with
  | .reg i => regText w i
  | .mem m => memText m
  | .imm v => widthPrefix w dst ++ toString v.toNat

/-- The mnemonics of the ALU operations (R94). -/
def kindText : AluKind → String
  | .add => "add"
  | .sub => "sub"
  | .cmp => "cmp"

/-- A signed decimal (R98). -/
def signedText (v : Int) : String :=
  if 0 ≤ v then toString v.toNat else "-" ++ toString (-v).toNat

/-- `render(I)`: `<mnemonic> <dest>, <src>`, and `<mnemonic> <signed-displacement>` for jumps (R94, R98). -/
def render (i : Instr) : String :=
  match i.record with
  | .mov w dst src => "mov " ++ locText w dst ++ ", " ++ srcText w dst src
  | .op k w dst src => kindText k ++ " " ++ locText w dst ++ ", " ++ srcText w dst src
  | .je v => "je " ++ signedText (signed8 v)
  | .jne v => "jne " ++ signedText (signed8 v)

/-- One instruction of a listing: where it starts, and its text. -/
structure Line where
  position : Nat
  text : String
  deriving DecidableEq, Repr

/-- What the disassembler answers: the lines before a fault, and the fault with the position of its `b0`, if there was one
(R100, R193; decision D19). -/
structure Listing where
  lines : List Line
  stop : Option (Cause × Nat)
  deriving DecidableEq, Repr

/-- The loop of R100 from a cursor, under fuel: one line per instruction, a commit after each, while bytes remain. -/
def disassembleFrom (buf : List Byte) : Nat → Cursor → Listing
  | 0, _ => ⟨[], none⟩
  | fuel + 1, c =>
    if c.position < buf.length then
      match c.decode buf with
      | .error e => ⟨[], some (causeOfDecode c.position e, c.position)⟩
      | .ok (i, d) =>
        let rest := disassembleFrom buf fuel (d.commit buf).1
        ⟨⟨c.position, render i⟩ :: rest.lines, rest.stop⟩
    else ⟨[], none⟩

/-- The disassembler (R100). An instruction has at least two bytes (R84), so the buffer's length is fuel enough. -/
def disassemble (buf : List Byte) : Listing := disassembleFrom buf buf.length ⟨0, 0⟩

end Sys2Proof.Machine
end

