-- ==== Sys2Proof/Machine/Load.lean ====
section
/-! DEFINITION. `load(image)`, the only reset of the block (R6, R220 of 70_reset_and_hazards.md). -/

namespace Sys2Proof.Machine

/-- The cells of an image whose first byte lies at `a`: its bytes verbatim, 0 elsewhere (R50). -/
def imageCells (a : Nat) : List Byte → Memory
  | [] => []
  | b :: bs => if b = 0 then imageCells (a + 1) bs else (a, b) :: imageCells (a + 1) bs

/-- `load(image)` (R220); an image of more than 65536 bytes is refused and no state is created (decision D11). -/
def State.load (image : List Byte) : Option State :=
  if image.length ≤ Config.maxImage then
    some { State.reset with mem := imageCells 0 image, progLen := image.length }
  else none

end Sys2Proof.Machine
end

