-- ==== Sys2Proof/Safety.lean ====
section
/-! DEFINITION. What claims are stated in: which states the block can be in (an invariant), and which runs are safe. -/

namespace Sys2Proof.Machine

/-- The state is not a faulted one: the premise R198 asks a claim to take (decision D10). -/
def State.NoFault (s : State) : Prop := s.status ≠ .faulted

/-- A fault record as the block writes it: its code is its kind's (R191), and its kind is one a program can raise
(R194, R195). -/
def FaultRecord.Proper (r : FaultRecord) : Prop :=
  r.code = r.kind.code ∧ (r.kind = .unrecognizedOpcode ∨ r.kind = .outOfBounds)

/-- The invariant of the block. -/
structure State.Inv (s : State) : Prop where
  /-- Memory is in canonical form, all of it inside 64 KiB (R40). -/
  memCanonical : s.mem.wf = true
  /-- `L` is 0 to 65536 (R20, R30). -/
  lengthInRange : s.progLen ≤ Config.memSize
  /-- `fault` holds a record exactly when `status = Faulted` (R31). -/
  faultIffFaulted : s.fault.isSome = true ↔ s.status = .faulted
  /-- The record, where there is one, is a proper one (R191, R194, R195). -/
  recordProper : ∀ r, s.fault = some r → r.Proper
  /-- The cursor's pending length is 0 to 6 (R20). -/
  pendingInRange : s.pending ≤ Config.maxInstrLen
  /-- Outside a fault no bytes are pending between steps (R33). -/
  pendingConsumed : s.status ≠ .faulted → s.pending = 0

/-- `k` steps lead from `s` to `t`, and no fault was met (a fault stops the block, R190). -/
def SafeRun (k : Nat) (s t : State) : Prop := Sys2Proof.core.run k s = .next t ∧ t.NoFault

end Sys2Proof.Machine
end

