-- ==== Sys2Proof/Certificates/Slice0/Obligations.lean ====
section
/-! DEFINITION. The statements for the provers. Values are the unsigned integers of R9, so that a statement about a result does
not repeat the model's own arithmetic. -/

namespace Sys2Proof.Claims

open Sys2Proof.Machine

/-! ## The terms the statements use -/

/-- An operand's value at width `w`, an unsigned integer (R9), little-endian in memory (R42). -/
def operandNat (s : State) (w : Width) : RmOp → Nat
  | .reg i =>
    match w with
    | .byte => (s.xb i).toNat
    | .word => (s.x i).toNat
  | .mem m =>
    match w with
    | .byte => (s.mem.read (s.ea m).toNat).toNat
    | .word => (s.mem.read (s.ea m).toNat).toNat + 256 * (s.mem.read ((s.ea m).toNat + 1)).toNat

/-- An immediate's value, an unsigned integer (R69). -/
def immNat : Imm → Nat
  | .imm8 v => v.toNat
  | .imm16 v => v.toNat

/-- `sext_16` of a byte as an unsigned integer (R9). -/
def sextNat (v : Byte) : Nat := if v.toNat < 0x80 then v.toNat else v.toNat + 0xFF00

/-- The operand's bytes all lie inside memory: the condition of R44, read as a condition on the state and the operand. -/
def Inside (s : State) (w : Width) : RmOp → Prop
  | .reg _ => True
  | .mem m => w = .word → s.ea m ≠ 0xFFFF

/-- Everything that no instruction but a jump or a fault changes during execution. -/
def SameControl (s t : State) : Prop :=
  t.ip = s.ip ∧ t.progLen = s.progLen ∧ t.status = s.status ∧ t.fault = s.fault ∧ t.n = s.n ∧ t.pending = s.pending

/-- Registers and memory are unchanged outside the destination `d` at width `w`: the other registers, the other half of the
word register that holds a byte register (R23), and every byte but the one or two stored at `s.ea m` (R43). -/
def SameOutside (w : Width) (d : RmOp) (s t : State) : Prop :=
  match d with
  | .reg i =>
    (∀ a, t.mem.read a = s.mem.read a) ∧
    match w with
    | .word => ∀ c, c ≠ i → t.x c = s.x c
    | .byte => (∀ c : RegCode, c.val ≠ i.val % 4 → t.x c = s.x c) ∧ ∀ b, b ≠ i → t.xb b = s.xb b
  | .mem m =>
    (∀ c, t.x c = s.x c) ∧
    ∀ a, a ≠ (s.ea m).toNat → (w = .word → a ≠ (s.ea m).toNat + 1) → t.mem.read a = s.mem.read a

/-- The outcome `r` of a MOV of the value `v` to `d`: it completes, `d` holds `v`, the flags are kept (R130), nothing else
changes. -/
def MovEffect (w : Width) (d : RmOp) (v : Nat) (s : State) (r : Result) : Prop :=
  ∃ t, r = .next t ∧ operandNat t w d = v ∧ t.zf = s.zf ∧ t.sf = s.sf ∧ SameControl s t ∧ SameOutside w d s t

/-- The ALU's result on unsigned integers: `(a + b) mod 2^W`, `(a - b) mod 2^W` (R150). -/
def aluNat (k : AluKind) (w : Width) (a b : Nat) : Nat :=
  match k with
  | .add => (a + b) % 2 ^ w.bits
  | .sub => (a + 2 ^ w.bits - b) % 2 ^ w.bits
  | .cmp => (a + 2 ^ w.bits - b) % 2 ^ w.bits

/-- The outcome `r` of an ALU instruction with destination `d` and source value `b` (R150): it completes; `zf` says whether the
result is 0 and `sf` is its top bit (R115); ADD and SUB leave the result in `d` and nothing else changed; CMP leaves every
register and every byte. -/
def AluEffect (k : AluKind) (w : Width) (d : RmOp) (b : Nat) (s : State) (r : Result) : Prop :=
  ∃ t, r = .next t ∧
    t.zf = decide (aluNat k w (operandNat s w d) b = 0) ∧
    t.sf = decide (2 ^ (w.bits - 1) ≤ aluNat k w (operandNat s w d) b) ∧
    SameControl s t ∧
    match k with
    | .add => operandNat t w d = aluNat k w (operandNat s w d) b ∧ SameOutside w d s t
    | .sub => operandNat t w d = aluNat k w (operandNat s w d) b ∧ SameOutside w d s t
    | .cmp => (∀ c, t.x c = s.x c) ∧ ∀ a, t.mem.read a = s.mem.read a

/-- `s` with a fault raised: the record and the status of R190, and nothing else changed. -/
def faultedFrom (s : State) (kind : FaultKind) (code : Nat) (info : FaultInfo) : State :=
  { s with
    status := .faulted
    fault := some { kind := kind, code := code, info := info, ipAtDetection := s.ip, ordinal := s.n } }

/-- The outcome of a word access that needs the byte 0x10000 (R44, R193). -/
def topFault (s : State) : Result := .next (faultedFrom s .outOfBounds 2 (.address 0x10000))

/-- The opcode bytes R80 accepts, row by row of its table. -/
def acceptedOpcode (b : Byte) : Bool :=
  let v := b.toNat
  (v ≤ 0x03) || (v = 0x04) || (v = 0x05) ||
  (0x28 ≤ v && v ≤ 0x2B) || (v = 0x2C) || (v = 0x2D) ||
  (0x38 ≤ v && v ≤ 0x3B) || (v = 0x3C) || (v = 0x3D) ||
  (v = 0x74) || (v = 0x75) ||
  (v = 0x80) || (v = 0x81) || (v = 0x83) ||
  (0x88 ≤ v && v ≤ 0x8B) ||
  (v = 0xA0) || (v = 0xA1) || (v = 0xA2) || (v = 0xA3) ||
  (0xB0 ≤ v && v ≤ 0xBF) || (v = 0xC6) || (v = 0xC7)

/-- The number `a` of address bytes that a ModRM byte asks for (R84). -/
def modrmAddressBytes (b1 : Byte) : Nat :=
  match b1.toNat / 64 with
  | 0 => if b1.toNat % 8 = 6 then 2 else 0
  | 1 => 1
  | 2 => 2
  | _ => 0

/-- The instruction length of R84's table. -/
def tableLength (b0 b1 : Byte) : Nat :=
  let v := b0.toNat
  if (0x88 ≤ v ∧ v ≤ 0x8B) ∨ v ≤ 0x03 ∨ (0x28 ≤ v ∧ v ≤ 0x2B) ∨ (0x38 ≤ v ∧ v ≤ 0x3B) then 2 + modrmAddressBytes b1
  else if v = 0xC6 ∨ v = 0x80 ∨ v = 0x83 then 3 + modrmAddressBytes b1
  else if v = 0xC7 ∨ v = 0x81 then 4 + modrmAddressBytes b1
  else if (0xB0 ≤ v ∧ v ≤ 0xB7) ∨ v = 0x04 ∨ v = 0x2C ∨ v = 0x3C ∨ v = 0x74 ∨ v = 0x75 then 2
  else 3

/-- Bytes of a `C6`/`C7` instruction with the ignored field of the ModRM byte cleared (R93). -/
def clearRegField : List Byte → List Byte
  | b0 :: b1 :: rest => b0 :: (b1 &&& 0xC7) :: rest
  | bs => bs

/-- Whether `b1[5:3]` of `80`, `81`, `83` is one of 000, 101, 111 (R72). -/
def supportedOperation (b1 : Byte) : Bool :=
  let o := b1.toNat / 8 % 8
  (o = 0) || (o = 5) || (o = 7)

/-- The destination an instruction writes, with its width; none for CMP, JE and JNE (R131 to R135, R150 to R161). -/
def writes : Instr → Option (Width × RmOp)
  | .movRmReg .toReg w reg _ => some (w, .reg reg)
  | .movRmReg .toRm w _ rm => some (w, rm)
  | .movRegImm reg imm => some (imm.width, .reg reg)
  | .movRmImm rm imm => some (imm.width, rm)
  | .movAccMem w _ => some (w, .reg 0)
  | .movMemAcc w addr => some (w, .mem (.direct addr))
  | .addRmReg .toReg w reg _ => some (w, .reg reg)
  | .addRmReg .toRm w _ rm => some (w, rm)
  | .subRmReg .toReg w reg _ => some (w, .reg reg)
  | .subRmReg .toRm w _ rm => some (w, rm)
  | .cmpRmReg _ _ _ _ => none
  | .addRmImm80 rm _ => some (.byte, rm)
  | .addRmImm81 rm _ => some (.word, rm)
  | .addRmImm83 rm _ => some (.word, rm)
  | .subRmImm80 rm _ => some (.byte, rm)
  | .subRmImm81 rm _ => some (.word, rm)
  | .subRmImm83 rm _ => some (.word, rm)
  | .cmpRmImm80 _ _ => none
  | .cmpRmImm81 _ _ => none
  | .cmpRmImm83 _ _ => none
  | .addAccImm imm => some (imm.width, .reg 0)
  | .subAccImm imm => some (imm.width, .reg 0)
  | .cmpAccImm _ => none
  | .je _ => none
  | .jne _ => none

/-- The instructions that write the flags: ADD, SUB and CMP, all forms (R26). -/
def writesFlags : Instr → Bool
  | .movRmReg _ _ _ _ => false
  | .movRegImm _ _ => false
  | .movRmImm _ _ => false
  | .movAccMem _ _ => false
  | .movMemAcc _ _ => false
  | .addRmReg _ _ _ _ => true
  | .subRmReg _ _ _ _ => true
  | .cmpRmReg _ _ _ _ => true
  | .addRmImm80 _ _ => true
  | .addRmImm81 _ _ => true
  | .addRmImm83 _ _ => true
  | .subRmImm80 _ _ => true
  | .subRmImm81 _ _ => true
  | .subRmImm83 _ _ => true
  | .cmpRmImm80 _ _ => true
  | .cmpRmImm81 _ _ => true
  | .cmpRmImm83 _ _ => true
  | .addAccImm _ => true
  | .subAccImm _ => true
  | .cmpAccImm _ => true
  | .je _ => false
  | .jne _ => false

/-- The two base registers of a mode, or one with 0, as unsigned integers (R66). -/
def baseNat (s : State) : EaMode → Nat
  | .bxSi => (s.x 3).toNat + (s.x 6).toNat
  | .bxDi => (s.x 3).toNat + (s.x 7).toNat
  | .bpSi => (s.x 5).toNat + (s.x 6).toNat
  | .bpDi => (s.x 5).toNat + (s.x 7).toNat
  | .si => (s.x 6).toNat
  | .di => (s.x 7).toNat
  | .bp => (s.x 5).toNat
  | .bx => (s.x 3).toNat

/-- The signed displacement, "zero if none" (R67, R112). -/
def dispInt : Disp → Int
  | .none => 0
  | .d8 v => v.toInt
  | .d16 v => v.toInt

/-- Where each of a list of instructions starts, the first at `p`. -/
def startsFrom (p : Nat) : List Instr → List Nat
  | [] => []
  | i :: is => p :: startsFrom (p + (encode i).length) is

end Sys2Proof.Claims

open Sys2Proof Sys2Proof.Machine Sys2Proof.Claims

/-! ## Reset and load -/

/-- Reset of the empty image, field by field (10_state.md section 8). The values of `zf` and `sf` rest on decision D2, of `n` on
D16; that reset stands for the empty image is the model's choice (log entry 3). -/
def Obligations.ResetStateAsSpecified : Prop :=
  (∀ i, State.reset.x i = 0) ∧ State.reset.ip = 0 ∧ State.reset.zf = false ∧ State.reset.sf = false ∧
    (∀ a, State.reset.mem.read a = 0) ∧ State.reset.progLen = 0 ∧ State.reset.status = .running ∧
    State.reset.fault = none ∧ State.reset.n = 0 ∧ State.reset.pending = 0

/-- The invariant holds right after reset. -/
def Obligations.ResetSatisfiesInvariant : Prop := State.reset.Inv

/-- `load(image)` leaves the image verbatim from address 0, zeros after it, and every other field at its load value; an image
longer than memory is refused (decision D11). -/
def Obligations.LoadPlacesImage : Prop :=
  ∀ image : List Byte,
    (image.length ≤ 65536 → ∃ s, State.load image = some s ∧ (∀ a, s.mem.read a = image.getD a 0) ∧ (∀ i, s.x i = 0) ∧
      s.ip = 0 ∧ s.zf = false ∧ s.sf = false ∧ s.progLen = image.length ∧ s.status = .running ∧ s.fault = none ∧ s.n = 0 ∧
      s.pending = 0) ∧
    (65536 < image.length → State.load image = none)

/-- Every loaded state satisfies the invariant, so every run of every program starts inside it. -/
def Obligations.LoadedStateSatisfiesInvariant : Prop :=
  ∀ (image : List Byte) (s : State), State.load image = some s → s.Inv

/-- The empty image halts at the first step with nothing changed. -/
def Obligations.EmptyImageHaltsAtOnce : Prop :=
  ∃ s, State.load [] = some s ∧ step s = .next { s with status := .halted }

/-! ## The step -/

/-- Every step keeps the invariant, from every state that satisfies it. -/
def Obligations.StepKeepsInvariant : Prop :=
  ∀ s t : State, s.Inv → step s = .next t → t.Inv

/-- When the bytes at `ip` decode, the step is the instruction executed with `ip` at the next instruction, the cursor
committed, and `n` counted unless the instruction faulted. The bound on the advance is decision D4. -/
def Obligations.StepRunsDecodedInstruction : Prop :=
  ∀ (s : State) (i : Instr) (len : Nat), s.status = .running → s.ip.toNat < s.progLen →
    decode s.fetchBytes = .ok (i, len) → s.ip.toNat + len ≤ 0xFFFF →
    step s = match exec i { s with ip := BitVec.ofNat 16 (s.ip.toNat + len), pending := 0 } with
      | .next t => if t.status = .faulted then .next t else .next { t with n := t.n + 1 }
      | .fault f => .fault f
      | .refused f => .refused f

/-- A step that begins with `ip` at or beyond `L` ends the run and changes nothing but `status`. -/
def Obligations.StepHaltsAtEndOfProgram : Prop :=
  ∀ s : State, s.status = .running → s.progLen ≤ s.ip.toNat → step s = .next { s with status := .halted }

/-- In Halted or Faulted there is no step; that the model says so with the outcomes named here is log entry 2. -/
def Obligations.StoppedBlockTakesNoStep : Prop :=
  ∀ s : State, (s.status = .halted → step s = .fault .noStepHalted) ∧ (s.status = .faulted → step s = .fault .noStepFaulted)

/-- A running block always has a next state: nothing refuses, and a fault of the block is itself a state. -/
def Obligations.RunningBlockAlwaysSteps : Prop :=
  ∀ s : State, s.status = .running → ∃ t, step s = .next t

/-- `L` is written by `load`, never changed by a step, and is what decides whether the run is over. -/
def Obligations.ProgramLengthNeverChanges : Prop :=
  (∀ (image : List Byte) (s : State), State.load image = some s → s.progLen = image.length) ∧
  ∀ s t : State, step s = .next t → t.progLen = s.progLen ∧ (t.status = .halted ↔ s.progLen ≤ s.ip.toNat)

/-- `n` goes up by one exactly in the steps that execute an instruction without a fault (decision D16). -/
def Obligations.OrdinalCountsCompletedInstructions : Prop :=
  ∀ s t : State, step s = .next t → (t.status = .running → t.n = s.n + 1) ∧ (t.status ≠ .running → t.n = s.n)

/-- After a step `ip` is the step's own address (only when the block stopped: a halt, or a fault before the commit), the
address after the instruction, or, for a JE or JNE whose condition holds, that address plus the displacement. -/
def Obligations.InstructionPointerChangesOnlyByAdvanceAndJump : Prop :=
  ∀ s t : State, step s = .next t → (t.ip = s.ip ∧ t.status ≠ .running) ∨
    ∃ i len, decode s.fetchBytes = .ok (i, len) ∧ (t.ip.toNat = s.ip.toNat + len ∨
      ∃ d8 : Byte, (i = .je d8 ∧ s.zf = true ∨ i = .jne d8 ∧ s.zf = false) ∧
        (t.ip.toNat : Int) = (s.ip.toNat + len : Nat) + d8.toInt)

/-! ## Faults -/

/-- A faulting step leaves every register, flag and byte as it found them, and `ip` too unless the fault came in execution,
when `ip` is the next instruction's address; the record holds that `ip` and the ordinal (decisions D3, D4, D8). -/
def Obligations.FaultsArePrecise : Prop :=
  ∀ s t : State, step s = .next t → t.status = .faulted →
    t.regs = s.regs ∧ t.zf = s.zf ∧ t.sf = s.sf ∧ t.mem = s.mem ∧ t.progLen = s.progLen ∧ t.n = s.n ∧
    (∃ r, t.fault = some r ∧ r.code = r.kind.code ∧ r.ipAtDetection = t.ip ∧ r.ordinal = s.n) ∧
    ((∃ i len, decode s.fetchBytes = .ok (i, len) ∧ s.ip.toNat + len ≤ 0xFFFF ∧ t.ip.toNat = s.ip.toNat + len) ∨
      (t.ip = s.ip ∧ ¬ ∃ i len, decode s.fetchBytes = .ok (i, len) ∧ s.ip.toNat + len ≤ 0xFFFF))

/-- No program raises InvalidOperand or UnknownRegister: an instruction's execution raises only OutOfBounds, and a step only
that or UnrecognizedOpcode. -/
def Obligations.ProgramsRaiseOnlyTwoFaultKinds : Prop :=
  (∀ (i : Instr) (s t : State), s.status = .running → exec i s = .next t → t.status = .faulted →
    ∃ r, t.fault = some r ∧ r.kind = .outOfBounds) ∧
  ∀ s t : State, step s = .next t → t.status = .faulted →
    ∃ r, t.fault = some r ∧ (r.kind = .unrecognizedOpcode ∨ r.kind = .outOfBounds)

/-- An opcode byte outside the map of R80 (`82` among them, decision D5) faults after its own fetch: code 1, the byte reported,
`ip` not advanced, one byte pending (log entry 4), nothing else changed. -/
def Obligations.UnrecognizedOpcodeFaults : Prop :=
  ∀ s : State, s.status = .running → s.ip.toNat < s.progLen → acceptedOpcode (s.mem.read s.ip.toNat) = false →
    step s = .next { faultedFrom s .unrecognizedOpcode 1 (.opcode (s.mem.read s.ip.toNat)) with pending := 1 }

/-- `80`, `81` and `83` with an operation other than ADD, SUB and CMP fault after `b1` is fetched, both bytes reported
(decisions D6, D9; the pending length is log entry 4). -/
def Obligations.UnsupportedOperationFaults : Prop :=
  ∀ s : State, s.status = .running → s.ip.toNat < s.progLen → s.ip.toNat + 1 ≤ 0xFFFF →
    (s.mem.read s.ip.toNat = 0x80 ∨ s.mem.read s.ip.toNat = 0x81 ∨ s.mem.read s.ip.toNat = 0x83) →
    supportedOperation (s.mem.read (s.ip.toNat + 1)) = false →
    step s = .next
      { faultedFrom s .unrecognizedOpcode 1 (.operation (s.mem.read s.ip.toNat) (s.mem.read (s.ip.toNat + 1))) with
        pending := 2 }

/-- A fetch beyond `0xFFFF` faults at the first address outside memory with `ip` not advanced; so does an accepted opcode at
`0xFFFF`, whose second byte is outside (every instruction has one). -/
def Obligations.FetchPastMemoryFaults : Prop :=
  (∀ (s : State) (k : Nat), s.status = .running → s.ip.toNat < s.progLen → decode s.fetchBytes = .error (.outOfBounds k) →
    s.ip.toNat + k = 0x10000 ∧
    step s = .next { faultedFrom s .outOfBounds 2 (.address 0x10000) with pending := k }) ∧
  ∀ s : State, s.ip = 0xFFFF → acceptedOpcode (s.mem.read 0xFFFF) = true → decode s.fetchBytes = .error (.outOfBounds 1)

/-- An instruction whose last byte is at `0xFFFF` faults at the advance (decision D4): `0x10000` reported, `ip` kept. -/
def Obligations.AdvancePastMemoryFaults : Prop :=
  ∀ (s : State) (i : Instr) (len : Nat), s.status = .running → s.ip.toNat < s.progLen →
    decode s.fetchBytes = .ok (i, len) → 0xFFFF < s.ip.toNat + len →
    step s = .next { faultedFrom s .outOfBounds 2 (.address 0x10000) with pending := len }

/-- A word operand at `0xFFFF` faults in every form that has one (decision D3), and changes no register, flag or byte. -/
def Obligations.WordAccessAtTopOfMemoryFaults : Prop :=
  ∀ (s : State) (m : MemOp) (d : Dir) (reg : RegCode) (v : Word) (i8 : Byte), s.ea m = 0xFFFF →
    exec (.movRmReg d .word reg (.mem m)) s = topFault s ∧
    exec (.movRmImm (.mem m) (.imm16 v)) s = topFault s ∧
    exec (.movAccMem .word 0xFFFF) s = topFault s ∧
    exec (.movMemAcc .word 0xFFFF) s = topFault s ∧
    exec (.addRmReg d .word reg (.mem m)) s = topFault s ∧
    exec (.subRmReg d .word reg (.mem m)) s = topFault s ∧
    exec (.cmpRmReg d .word reg (.mem m)) s = topFault s ∧
    exec (.addRmImm81 (.mem m) v) s = topFault s ∧
    exec (.addRmImm83 (.mem m) i8) s = topFault s ∧
    exec (.subRmImm81 (.mem m) v) s = topFault s ∧
    exec (.subRmImm83 (.mem m) i8) s = topFault s ∧
    exec (.cmpRmImm81 (.mem m) v) s = topFault s ∧
    exec (.cmpRmImm83 (.mem m) i8) s = topFault s

/-! ## Decoding -/

/-- Words written out from the formats of R74 to R79 decode to the instructions they stand for. -/
def Obligations.SpecWordsDecode : Prop :=
  decode [0x88, 0xC3] = .ok (.movRmReg .toRm .byte 0 (.reg 3), 2) ∧
  decode [0x8B, 0x46, 0xFF] = .ok (.movRmReg .toReg .word 0 (.mem (.ea .bp (.d8 0xFF))), 3) ∧
  decode [0x8B, 0x06, 0x34, 0x12] = .ok (.movRmReg .toReg .word 0 (.mem (.direct 0x1234)), 4) ∧
  decode [0xB9, 0x03, 0x00] = .ok (.movRegImm 1 (.imm16 3), 3) ∧
  decode [0xC7, 0x06, 0x10, 0x00, 0x01, 0x00] = .ok (.movRmImm (.mem (.direct 16)) (.imm16 1), 6) ∧
  decode [0xA1, 0x10, 0x00] = .ok (.movAccMem .word 16, 3) ∧
  decode [0xA3, 0xD0, 0x07] = .ok (.movMemAcc .word 2000, 3) ∧
  decode [0x01, 0xD8] = .ok (.addRmReg .toRm .word 3 (.reg 0), 2) ∧
  decode [0x83, 0x6A, 0xFE, 0x01] = .ok (.subRmImm83 (.mem (.ea .bpSi (.d8 0xFE))) 1, 4) ∧
  decode [0x3D, 0x00, 0x00] = .ok (.cmpAccImm (.imm16 0), 3) ∧
  decode [0x75, 0xF8] = .ok (.jne 0xF8, 2)

/-- The opcode map accepts exactly the 49 bytes of R80 (the values are general knowledge in the spec, GK5 and GK9). -/
def Obligations.AcceptedOpcodeBytes : Prop :=
  (∀ b : Byte, (familyOf b).isSome = acceptedOpcode b) ∧
    ((List.range 256).filter (fun v => acceptedOpcode (BitVec.ofNat 8 v))).length = 49

/-- No byte belongs to two rows of the opcode map, so the priority order of R81 never decides. -/
def Obligations.OpcodeRowsAreDisjoint : Prop :=
  opcodeRows.Pairwise (fun r q => ∀ b : Byte, ¬ (r.has b = true ∧ q.has b = true))

/-- Decoding an encoded well-formed instruction gives it back, with its length, whatever bytes follow. -/
def Obligations.DecodeOfEncode : Prop :=
  ∀ (i : Instr) (rest : List Byte), i.wf = true → decode (encode i ++ rest) = .ok (i, (encode i).length)

/-- What decodes is a well-formed instruction, and encoding it gives back the bytes read; in `C6`/`C7` all but the ignored
field (decision D7; that the encoder writes 000 there is log entry 9). -/
def Obligations.EncodeOfDecode : Prop :=
  ∀ (bs : List Byte) (i : Instr) (len : Nat), decode bs = .ok (i, len) →
    i.wf = true ∧ len ≤ bs.length ∧
    encode i = match i with
      | .movRmImm _ _ => clearRegField (bs.take len)
      | _ => bs.take len

/-- The length is R84's function of `b0` and `b1`, `b1` mattering in the ModRM families only, and the decoder reads exactly
that many bytes: the first `len` alone decode the same way, and no later byte changes anything. -/
def Obligations.DecodedLengthFromFirstTwoBytes : Prop :=
  ∀ (bs : List Byte) (i : Instr) (len : Nat), decode bs = .ok (i, len) →
    (∃ b0 b1 tail, bs = b0 :: b1 :: tail ∧ len = tableLength b0 b1) ∧
    ∀ rest : List Byte, decode (bs.take len ++ rest) = .ok (i, len)

/-- The decoder runs out of bytes only past the end of its source, and only inside the longest instruction. -/
def Obligations.DecodeOutOfBoundsOnlyPastEnd : Prop :=
  ∀ (bs : List Byte) (k : Nat), decode bs = .error (.outOfBounds k) → k = bs.length ∧ k < 6

/-- In `C6` and `C7` the ModRM byte's `reg` field is not examined (decision D7). -/
def Obligations.IgnoredRegisterField : Prop :=
  ∀ (b0 b1 b1' : Byte) (rest : List Byte), (b0 = 0xC6 ∨ b0 = 0xC7) → b1 &&& 0xC7 = b1' &&& 0xC7 →
    decode (b0 :: b1 :: rest) = decode (b0 :: b1' :: rest)

/-- The disassembler on encoded instructions: one line for each, at its address, in its text; and where bytes that do not decode
follow, the listing stops there with the fault and no line for it (decision D19). -/
def Obligations.DisassemblyOfEncodedInstructions : Prop :=
  ∀ (is : List Instr) (bad : List Byte) (e : DecodeError), (∀ i ∈ is, i.wf = true) →
    disassemble (is.flatMap encode) =
      ⟨List.zipWith (fun p i => ⟨p, render i⟩) (startsFrom 0 is) is, none⟩ ∧
    (bad ≠ [] → decode bad = .error e →
      disassemble (is.flatMap encode ++ bad) =
        ⟨List.zipWith (fun p i => ⟨p, render i⟩) (startsFrom 0 is) is,
          some (causeOfDecode (is.flatMap encode).length e, (is.flatMap encode).length)⟩)

/-! ## Instructions -/

/-- Every MOV copies the source's value to the destination, keeps the flags and changes nothing else: the five rows, both
directions, wherever the memory operand lies inside memory. -/
def Obligations.MovCopiesSourceToDestination : Prop :=
  ∀ (s : State) (w : Width) (reg : RegCode) (rm : RmOp) (imm : Imm) (addr : Word),
    (Inside s w rm →
      MovEffect w (.reg reg) (operandNat s w rm) s (exec (.movRmReg .toReg w reg rm) s) ∧
      MovEffect w rm (operandNat s w (.reg reg)) s (exec (.movRmReg .toRm w reg rm) s)) ∧
    MovEffect imm.width (.reg reg) (immNat imm) s (exec (.movRegImm reg imm) s) ∧
    (Inside s imm.width rm → MovEffect imm.width rm (immNat imm) s (exec (.movRmImm rm imm) s)) ∧
    (Inside s w (.mem (.direct addr)) →
      MovEffect w (.reg 0) (operandNat s w (.mem (.direct addr))) s (exec (.movAccMem w addr) s) ∧
      MovEffect w (.mem (.direct addr)) (operandNat s w (.reg 0)) s (exec (.movMemAcc w addr) s))

/-- ADD, SUB and CMP between register and r/m, both directions: result modulo 2^W, flags of the result, nothing else. -/
def Obligations.AluRegisterMemoryEffect : Prop :=
  ∀ (s : State) (w : Width) (reg : RegCode) (rm : RmOp), Inside s w rm →
    AluEffect .add w (.reg reg) (operandNat s w rm) s (exec (.addRmReg .toReg w reg rm) s) ∧
    AluEffect .add w rm (operandNat s w (.reg reg)) s (exec (.addRmReg .toRm w reg rm) s) ∧
    AluEffect .sub w (.reg reg) (operandNat s w rm) s (exec (.subRmReg .toReg w reg rm) s) ∧
    AluEffect .sub w rm (operandNat s w (.reg reg)) s (exec (.subRmReg .toRm w reg rm) s) ∧
    AluEffect .cmp w (.reg reg) (operandNat s w rm) s (exec (.cmpRmReg .toReg w reg rm) s) ∧
    AluEffect .cmp w rm (operandNat s w (.reg reg)) s (exec (.cmpRmReg .toRm w reg rm) s)

/-- ADD, SUB and CMP of an immediate and r/m: the `80` rows on a byte, the `81` rows on a word, the `83` rows on a word with the
immediate byte sign-extended. -/
def Obligations.AluImmediateEffect : Prop :=
  ∀ (s : State) (rm : RmOp) (i8 : Byte) (i16 : Word),
    AluEffect .add .byte rm i8.toNat s (exec (.addRmImm80 rm i8) s) ∧
    AluEffect .sub .byte rm i8.toNat s (exec (.subRmImm80 rm i8) s) ∧
    AluEffect .cmp .byte rm i8.toNat s (exec (.cmpRmImm80 rm i8) s) ∧
    (Inside s .word rm →
      AluEffect .add .word rm i16.toNat s (exec (.addRmImm81 rm i16) s) ∧
      AluEffect .sub .word rm i16.toNat s (exec (.subRmImm81 rm i16) s) ∧
      AluEffect .cmp .word rm i16.toNat s (exec (.cmpRmImm81 rm i16) s) ∧
      AluEffect .add .word rm (sextNat i8) s (exec (.addRmImm83 rm i8) s) ∧
      AluEffect .sub .word rm (sextNat i8) s (exec (.subRmImm83 rm i8) s) ∧
      AluEffect .cmp .word rm (sextNat i8) s (exec (.cmpRmImm83 rm i8) s))

/-- ADD, SUB and CMP of an immediate and the accumulator, in every state. -/
def Obligations.AluAccumulatorImmediateEffect : Prop :=
  ∀ (s : State) (imm : Imm),
    AluEffect .add imm.width (.reg 0) (immNat imm) s (exec (.addAccImm imm) s) ∧
    AluEffect .sub imm.width (.reg 0) (immNat imm) s (exec (.subAccImm imm) s) ∧
    AluEffect .cmp imm.width (.reg 0) (immNat imm) s (exec (.cmpAccImm imm) s)

/-- `SetZS`: for a `W`-bit result, `zf` says whether it is 0 and `sf` is its bit `W-1`; nothing else changes. -/
def Obligations.FlagsOfResult : Prop :=
  ∀ (s : State) (w : Width) (r : Word), r.toNat < 2 ^ w.bits →
    ((s.setZS w r).zf = true ↔ r.toNat = 0) ∧ ((s.setZS w r).sf = true ↔ 2 ^ (w.bits - 1) ≤ r.toNat) ∧
    s.setZS w r = { s with zf := (s.setZS w r).zf, sf := (s.setZS w r).sf }

/-- JE: not taken with `zf = 0`; taken with `zf = 1`, to `ip` plus the signed displacement; a target outside memory faults
(decision D4). Nothing but `ip` changes when it completes. -/
def Obligations.JeEffect : Prop :=
  ∀ (s : State) (d8 : Byte),
    (s.zf = false → exec (.je d8) s = .next s) ∧
    (s.zf = true → 0 ≤ (s.ip.toNat : Int) + d8.toInt → (s.ip.toNat : Int) + d8.toInt ≤ 0xFFFF →
      ∃ t, exec (.je d8) s = .next t ∧ (t.ip.toNat : Int) = (s.ip.toNat : Int) + d8.toInt ∧ t = { s with ip := t.ip }) ∧
    (s.zf = true → ((s.ip.toNat : Int) + d8.toInt < 0 ∨ 0xFFFF < (s.ip.toNat : Int) + d8.toInt) →
      exec (.je d8) s = .next (faultedFrom s .outOfBounds 2 (.address ((s.ip.toNat : Int) + d8.toInt))))

/-- JNE: as JE, taken with `zf = 0`. -/
def Obligations.JneEffect : Prop :=
  ∀ (s : State) (d8 : Byte),
    (s.zf = true → exec (.jne d8) s = .next s) ∧
    (s.zf = false → 0 ≤ (s.ip.toNat : Int) + d8.toInt → (s.ip.toNat : Int) + d8.toInt ≤ 0xFFFF →
      ∃ t, exec (.jne d8) s = .next t ∧ (t.ip.toNat : Int) = (s.ip.toNat : Int) + d8.toInt ∧ t = { s with ip := t.ip }) ∧
    (s.zf = false → ((s.ip.toNat : Int) + d8.toInt < 0 ∨ 0xFFFF < (s.ip.toNat : Int) + d8.toInt) →
      exec (.jne d8) s = .next (faultedFrom s .outOfBounds 2 (.address ((s.ip.toNat : Int) + d8.toInt))))

/-- The frame of every instruction, in every state, faulting or not: `L`, `n` and the cursor are kept; `status` and the fault
record are kept unless a fault is raised; registers and memory are kept outside the one destination; CMP, JE and JNE keep all
of both. -/
def Obligations.InstructionFrames : Prop :=
  ∀ (i : Instr) (s t : State), exec i s = .next t →
    t.progLen = s.progLen ∧ t.n = s.n ∧ t.pending = s.pending ∧
    (t.status = .faulted ∨ (t.status = s.status ∧ t.fault = s.fault)) ∧
    match writes i with
    | some (w, d) => SameOutside w d s t
    | none => (∀ c, t.x c = s.x c) ∧ ∀ a, t.mem.read a = s.mem.read a

/-- No instruction but ADD, SUB and CMP changes a flag; no instruction but JE and JNE changes `ip` in its execution. -/
def Obligations.FlagsChangeOnlyByArithmetic : Prop :=
  ∀ (i : Instr) (s t : State), exec i s = .next t →
    (writesFlags i = false → t.zf = s.zf ∧ t.sf = s.sf) ∧
    ((∀ d8, i ≠ .je d8 ∧ i ≠ .jne d8) → t.ip = s.ip)

/-- `sf` influences nothing: a step from a state with another `sf` differs in `sf` alone. -/
def Obligations.SignFlagIsNeverRead : Prop :=
  ∀ (s t : State) (b : Bool), step s = .next t → ∃ t', step { s with sf := b } = .next t' ∧ { t' with sf := t.sf } = t

/-- No program reads `n`, the one counter of the state: a step from a state with another ordinal `m` counts from `m` and
reports `m` in a fault record it writes, and is otherwise the same. -/
def Obligations.OrdinalIsNeverRead : Prop :=
  ∀ (s t : State) (m : Nat), step s = .next t →
    step { s with n := m } = .next
      { t with
        n := m + (t.n - s.n)
        fault := if t.status = .faulted then t.fault.map (fun r => { r with ordinal := m }) else t.fault }

/-! ## Registers and memory -/

/-- A byte-register write changes its half alone; a word-register write changes all 16 bits; a byte read gives the half. -/
def Obligations.ByteRegisterWriteKeepsOtherHalf : Prop :=
  ∀ (s : State) (i j : RegCode) (v : Byte) (c : RegCode) (u : Word),
    (s.setXb i v).xb i = v ∧ (j ≠ i → (s.setXb i v).xb j = s.xb j) ∧
    (c.val ≠ i.val % 4 → (s.setXb i v).x c = s.x c) ∧
    (c.val = i.val % 4 → i.val < 4 → (s.setXb i v).x c = (s.x c).extractLsb' 8 8 ++ v) ∧
    (c.val = i.val % 4 → 4 ≤ i.val → (s.setXb i v).x c = v ++ (s.x c).extractLsb' 0 8) ∧
    (c.val = i.val % 4 → s.xb i = if i.val < 4 then (s.x c).extractLsb' 0 8 else (s.x c).extractLsb' 8 8) ∧
    (s.setX c u).x c = u

/-- `MemRead` and `MemWrite`: a byte access is the byte; a word access, where the second byte lies inside memory, has its low byte
at the lower address; a write changes those bytes alone. -/
def Obligations.MemoryAccessesAreLittleEndian : Prop :=
  ∀ (m : Memory) (a v : Word),
    (∃ r, memRead m .byte a = .ok r ∧ r.toNat = (m.read a.toNat).toNat) ∧
    (a.toNat + 1 ≤ 0xFFFF → ∃ r, memRead m .word a = .ok r ∧
      r.toNat = (m.read a.toNat).toNat + 256 * (m.read (a.toNat + 1)).toNat) ∧
    (∃ m', memWrite m .byte a v = .ok m' ∧ (m'.read a.toNat).toNat = v.toNat % 256 ∧
      ∀ b, b ≠ a.toNat → m'.read b = m.read b) ∧
    (a.toNat + 1 ≤ 0xFFFF → ∃ m', memWrite m .word a v = .ok m' ∧ (m'.read a.toNat).toNat = v.toNat % 256 ∧
      (m'.read (a.toNat + 1)).toNat = v.toNat / 256 ∧ ∀ b, b ≠ a.toNat → b ≠ a.toNat + 1 → m'.read b = m.read b)

/-- The effective address is the sum of the mode's registers and the signed displacement, modulo 2^16; a direct address is
itself (the mode table is general knowledge in the spec, GK7). -/
def Obligations.EffectiveAddressSum : Prop :=
  ∀ (s : State) (mode : EaMode) (d : Disp) (a : Word),
    s.ea (.direct a) = a ∧ ((s.ea (.ea mode d)).toNat : Int) = ((baseNat s mode : Int) + dispInt d) % 65536

/-- A value stored from the accumulator is loaded back from the same address, whatever happened to the registers between; a
stored word has `al` at its address and `ah` at the next. -/
def Obligations.StoreThenLoadReturnsValue : Prop :=
  ∀ (s : State) (w : Width) (addr : Word), (w = .word → addr ≠ 0xFFFF) →
    ∃ t, exec (.movMemAcc w addr) s = .next t ∧
      t.mem.read addr.toNat = s.xb 0 ∧ (w = .word → t.mem.read (addr.toNat + 1) = s.xb 4) ∧
      ∀ q : State, q.mem = t.mem → ∃ u, exec (.movAccMem w addr) q = .next u ∧
        operandNat u w (.reg 0) = operandNat s w (.reg 0)

/-- A byte stored where the next fetch reads is the byte it fetches: no cache, no prefetch, no delay. -/
def Obligations.StoreThenFetchSeesNewByte : Prop :=
  ∀ (s : State) (addr : Word) (k : Nat), k < 6 → addr.toNat = s.ip.toNat + k →
    ∃ t, exec (.movMemAcc .byte addr) s = .next t ∧ t.fetchBytes[k]? = some (s.xb 0)
end

