-- ==== Sys2Proof/Laws/PerInstr.lean ====
section
/-! SUPPORT. The family EncodedLength: every well-formed instruction is encoded in the number of bytes R84 gives its row. -/

namespace Sys2Proof.Laws

/-- The number of address bytes `a` of an r/m operand (R84). -/
def addressBytes : RmOp → Nat
  | .reg _ => 0
  | .mem (.direct _) => 2
  | .mem (.ea _ .none) => 0
  | .mem (.ea _ (.d8 _)) => 1
  | .mem (.ea _ (.d16 _)) => 2

@[simp] theorem length_wordBytes (v : Word) : (wordBytes v).length = 2 := rfl

@[simp] theorem length_rm_tail (rm : RmOp) : rm.tail.length = addressBytes rm := by
  cases rm with
  | reg c => rfl
  | mem m =>
    cases m with
    | direct a => rfl
    | ea mode d => cases d <;> rfl

@[simp] theorem length_rm_bytes (rm : RmOp) (reg : BitVec 3) : (rm.bytes reg).length = 1 + addressBytes rm := by
  simp [RmOp.bytes]; omega

/-- The number of bytes an immediate takes (R69). -/
def immBytes : Imm → Nat
  | .imm8 _ => 1
  | .imm16 _ => 2

@[simp] theorem length_imm_bytes (imm : Imm) : imm.bytes.length = immBytes imm := by
  cases imm <;> rfl

theorem addressBytes_le (rm : RmOp) : addressBytes rm ≤ 2 := by
  cases rm with
  | reg c => simp [addressBytes]
  | mem m =>
    cases m with
    | direct a => simp [addressBytes]
    | ea mode d => cases d <;> simp [addressBytes]

theorem immBytes_bounds (imm : Imm) : 1 ≤ immBytes imm ∧ immBytes imm ≤ 2 := by
  cases imm <;> simp [immBytes]

namespace EncodedLength

/-- The encoded length of a row, as R84's table gives it; between 2 and 6. -/
def Statement (i : Instr) : Prop :=
  (encode i).length = (match i with
    | .movRmReg _ _ _ rm => 2 + addressBytes rm
    | .movRegImm _ imm => 1 + immBytes imm
    | .movRmImm rm imm => 2 + addressBytes rm + immBytes imm
    | .movAccMem _ _ => 3
    | .movMemAcc _ _ => 3
    | .addRmReg _ _ _ rm => 2 + addressBytes rm
    | .subRmReg _ _ _ rm => 2 + addressBytes rm
    | .cmpRmReg _ _ _ rm => 2 + addressBytes rm
    | .addRmImm80 rm _ => 3 + addressBytes rm
    | .addRmImm81 rm _ => 4 + addressBytes rm
    | .addRmImm83 rm _ => 3 + addressBytes rm
    | .subRmImm80 rm _ => 3 + addressBytes rm
    | .subRmImm81 rm _ => 4 + addressBytes rm
    | .subRmImm83 rm _ => 3 + addressBytes rm
    | .cmpRmImm80 rm _ => 3 + addressBytes rm
    | .cmpRmImm81 rm _ => 4 + addressBytes rm
    | .cmpRmImm83 rm _ => 3 + addressBytes rm
    | .addAccImm imm => 1 + immBytes imm
    | .subAccImm imm => 1 + immBytes imm
    | .cmpAccImm imm => 1 + immBytes imm
    | .je _ => 2
    | .jne _ => 2) ∧ 2 ≤ (encode i).length ∧ (encode i).length ≤ Config.maxInstrLen

theorem movRmReg (d : Dir) (w : Width) (reg : RegCode) (rm : RmOp) : Statement (.movRmReg d w reg rm) := by
  have h1 := addressBytes_le rm
  simp [Statement, encode, Config.maxInstrLen]; omega

theorem movRegImm (reg : RegCode) (imm : Imm) : Statement (.movRegImm reg imm) := by
  have h2 := immBytes_bounds imm
  simp [Statement, encode, Config.maxInstrLen]; omega

theorem movRmImm (rm : RmOp) (imm : Imm) : Statement (.movRmImm rm imm) := by
  have h1 := addressBytes_le rm
  have h2 := immBytes_bounds imm
  simp [Statement, encode, Config.maxInstrLen]; omega

theorem movAccMem (w : Width) (addr : Word) : Statement (.movAccMem w addr) := by
  simp [Statement, encode, Config.maxInstrLen]

theorem movMemAcc (w : Width) (addr : Word) : Statement (.movMemAcc w addr) := by
  simp [Statement, encode, Config.maxInstrLen]

theorem addRmReg (d : Dir) (w : Width) (reg : RegCode) (rm : RmOp) : Statement (.addRmReg d w reg rm) := by
  have h1 := addressBytes_le rm
  simp [Statement, encode, encodeAluRmReg, Config.maxInstrLen]; omega

theorem subRmReg (d : Dir) (w : Width) (reg : RegCode) (rm : RmOp) : Statement (.subRmReg d w reg rm) := by
  have h1 := addressBytes_le rm
  simp [Statement, encode, encodeAluRmReg, Config.maxInstrLen]; omega

theorem cmpRmReg (d : Dir) (w : Width) (reg : RegCode) (rm : RmOp) : Statement (.cmpRmReg d w reg rm) := by
  have h1 := addressBytes_le rm
  simp [Statement, encode, encodeAluRmReg, Config.maxInstrLen]; omega

theorem addRmImm80 (rm : RmOp) (v : Byte) : Statement (.addRmImm80 rm v) := by
  have h1 := addressBytes_le rm
  simp [Statement, encode, Config.maxInstrLen]; omega

theorem addRmImm81 (rm : RmOp) (v : Word) : Statement (.addRmImm81 rm v) := by
  have h1 := addressBytes_le rm
  simp [Statement, encode, Config.maxInstrLen]; omega

theorem addRmImm83 (rm : RmOp) (v : Byte) : Statement (.addRmImm83 rm v) := by
  have h1 := addressBytes_le rm
  simp [Statement, encode, Config.maxInstrLen]; omega

theorem subRmImm80 (rm : RmOp) (v : Byte) : Statement (.subRmImm80 rm v) := by
  have h1 := addressBytes_le rm
  simp [Statement, encode, Config.maxInstrLen]; omega

theorem subRmImm81 (rm : RmOp) (v : Word) : Statement (.subRmImm81 rm v) := by
  have h1 := addressBytes_le rm
  simp [Statement, encode, Config.maxInstrLen]; omega

theorem subRmImm83 (rm : RmOp) (v : Byte) : Statement (.subRmImm83 rm v) := by
  have h1 := addressBytes_le rm
  simp [Statement, encode, Config.maxInstrLen]; omega

theorem cmpRmImm80 (rm : RmOp) (v : Byte) : Statement (.cmpRmImm80 rm v) := by
  have h1 := addressBytes_le rm
  simp [Statement, encode, Config.maxInstrLen]; omega

theorem cmpRmImm81 (rm : RmOp) (v : Word) : Statement (.cmpRmImm81 rm v) := by
  have h1 := addressBytes_le rm
  simp [Statement, encode, Config.maxInstrLen]; omega

theorem cmpRmImm83 (rm : RmOp) (v : Byte) : Statement (.cmpRmImm83 rm v) := by
  have h1 := addressBytes_le rm
  simp [Statement, encode, Config.maxInstrLen]; omega

theorem addAccImm (imm : Imm) : Statement (.addAccImm imm) := by
  have h2 := immBytes_bounds imm
  simp [Statement, encode, encodeAluAccImm, Config.maxInstrLen]; omega

theorem subAccImm (imm : Imm) : Statement (.subAccImm imm) := by
  have h2 := immBytes_bounds imm
  simp [Statement, encode, encodeAluAccImm, Config.maxInstrLen]; omega

theorem cmpAccImm (imm : Imm) : Statement (.cmpAccImm imm) := by
  have h2 := immBytes_bounds imm
  simp [Statement, encode, encodeAluAccImm, Config.maxInstrLen]; omega

theorem je (d8 : Byte) : Statement (.je d8) := by
  simp [Statement, encode, Config.maxInstrLen]

theorem jne (d8 : Byte) : Statement (.jne d8) := by
  simp [Statement, encode, Config.maxInstrLen]

end EncodedLength
end Sys2Proof.Laws
end

