-- ==== Sys2Proof/Laws/State.lean ====
section
/-! SUPPORT. One lemma per field per update of State: what each update leaves, and what it writes. -/

namespace Sys2Proof.Machine

@[simp] theorem State.setX_ip (s : State) (i : RegCode) (v : Word) : (s.setX i v).ip = s.ip := rfl
@[simp] theorem State.setX_zf (s : State) (i : RegCode) (v : Word) : (s.setX i v).zf = s.zf := rfl
@[simp] theorem State.setX_sf (s : State) (i : RegCode) (v : Word) : (s.setX i v).sf = s.sf := rfl
@[simp] theorem State.setX_mem (s : State) (i : RegCode) (v : Word) : (s.setX i v).mem = s.mem := rfl
@[simp] theorem State.setX_progLen (s : State) (i : RegCode) (v : Word) : (s.setX i v).progLen = s.progLen := rfl
@[simp] theorem State.setX_status (s : State) (i : RegCode) (v : Word) : (s.setX i v).status = s.status := rfl
@[simp] theorem State.setX_fault (s : State) (i : RegCode) (v : Word) : (s.setX i v).fault = s.fault := rfl
@[simp] theorem State.setX_n (s : State) (i : RegCode) (v : Word) : (s.setX i v).n = s.n := rfl
@[simp] theorem State.setX_pending (s : State) (i : RegCode) (v : Word) : (s.setX i v).pending = s.pending := rfl

@[simp] theorem State.setZS_regs (s : State) (w : Width) (r : Word) : (s.setZS w r).regs = s.regs := rfl
@[simp] theorem State.setZS_ip (s : State) (w : Width) (r : Word) : (s.setZS w r).ip = s.ip := rfl
@[simp] theorem State.setZS_mem (s : State) (w : Width) (r : Word) : (s.setZS w r).mem = s.mem := rfl
@[simp] theorem State.setZS_progLen (s : State) (w : Width) (r : Word) : (s.setZS w r).progLen = s.progLen := rfl
@[simp] theorem State.setZS_status (s : State) (w : Width) (r : Word) : (s.setZS w r).status = s.status := rfl
@[simp] theorem State.setZS_fault (s : State) (w : Width) (r : Word) : (s.setZS w r).fault = s.fault := rfl
@[simp] theorem State.setZS_n (s : State) (w : Width) (r : Word) : (s.setZS w r).n = s.n := rfl
@[simp] theorem State.setZS_pending (s : State) (w : Width) (r : Word) : (s.setZS w r).pending = s.pending := rfl

@[simp] theorem State.raise_regs (s : State) (c : Cause) : (s.raise c).regs = s.regs := rfl
@[simp] theorem State.raise_ip (s : State) (c : Cause) : (s.raise c).ip = s.ip := rfl
@[simp] theorem State.raise_zf (s : State) (c : Cause) : (s.raise c).zf = s.zf := rfl
@[simp] theorem State.raise_sf (s : State) (c : Cause) : (s.raise c).sf = s.sf := rfl
@[simp] theorem State.raise_mem (s : State) (c : Cause) : (s.raise c).mem = s.mem := rfl
@[simp] theorem State.raise_progLen (s : State) (c : Cause) : (s.raise c).progLen = s.progLen := rfl
@[simp] theorem State.raise_n (s : State) (c : Cause) : (s.raise c).n = s.n := rfl
@[simp] theorem State.raise_pending (s : State) (c : Cause) : (s.raise c).pending = s.pending := rfl

@[simp] theorem State.halt_regs (s : State) : (s.halt).regs = s.regs := rfl
@[simp] theorem State.halt_ip (s : State) : (s.halt).ip = s.ip := rfl
@[simp] theorem State.halt_zf (s : State) : (s.halt).zf = s.zf := rfl
@[simp] theorem State.halt_sf (s : State) : (s.halt).sf = s.sf := rfl
@[simp] theorem State.halt_mem (s : State) : (s.halt).mem = s.mem := rfl
@[simp] theorem State.halt_progLen (s : State) : (s.halt).progLen = s.progLen := rfl
@[simp] theorem State.halt_fault (s : State) : (s.halt).fault = s.fault := rfl
@[simp] theorem State.halt_n (s : State) : (s.halt).n = s.n := rfl
@[simp] theorem State.halt_pending (s : State) : (s.halt).pending = s.pending := rfl

@[simp] theorem State.advance_regs (s : State) (len : Nat) : (s.advance len).regs = s.regs := rfl
@[simp] theorem State.advance_zf (s : State) (len : Nat) : (s.advance len).zf = s.zf := rfl
@[simp] theorem State.advance_sf (s : State) (len : Nat) : (s.advance len).sf = s.sf := rfl
@[simp] theorem State.advance_mem (s : State) (len : Nat) : (s.advance len).mem = s.mem := rfl
@[simp] theorem State.advance_progLen (s : State) (len : Nat) : (s.advance len).progLen = s.progLen := rfl
@[simp] theorem State.advance_status (s : State) (len : Nat) : (s.advance len).status = s.status := rfl
@[simp] theorem State.advance_fault (s : State) (len : Nat) : (s.advance len).fault = s.fault := rfl
@[simp] theorem State.advance_n (s : State) (len : Nat) : (s.advance len).n = s.n := rfl

@[simp] theorem State.setX_regs (s : State) (i : RegCode) (v : Word) : (s.setX i v).regs = s.regs.set i v := rfl
@[simp] theorem State.setZS_zf (s : State) (w : Width) (r : Word) : (s.setZS w r).zf = decide (r = 0) := rfl
@[simp] theorem State.setZS_sf (s : State) (w : Width) (r : Word) : (s.setZS w r).sf = w.msb r := rfl
@[simp] theorem State.raise_status (s : State) (c : Cause) : (s.raise c).status = .faulted := rfl
@[simp] theorem State.raise_fault (s : State) (c : Cause) :
    (s.raise c).fault = some ⟨c.kind, c.kind.code, c.info, s.ip, s.n⟩ := rfl
@[simp] theorem State.halt_status (s : State) : s.halt.status = .halted := rfl
@[simp] theorem State.advance_ip (s : State) (len : Nat) : (s.advance len).ip = BitVec.ofNat 16 (s.ip.toNat + len) := rfl
@[simp] theorem State.advance_pending (s : State) (len : Nat) : (s.advance len).pending = 0 := rfl

/-- Flags, memory and control state never reach a register read. -/
@[simp] theorem State.setZS_x (s : State) (w : Width) (r : Word) (i : RegCode) : (s.setZS w r).x i = s.x i := rfl
@[simp] theorem State.setZS_xb (s : State) (w : Width) (r : Word) (i : RegCode) : (s.setZS w r).xb i = s.xb i := rfl
@[simp] theorem State.setZS_ea (s : State) (w : Width) (r : Word) (m : MemOp) : (s.setZS w r).ea m = s.ea m := by
  cases m with
  | direct a => rfl
  | ea mode d => cases mode <;> rfl

@[simp] theorem State.setXb_ip (s : State) (i : RegCode) (v : Byte) : (s.setXb i v).ip = s.ip := by
  unfold State.setXb; split <;> rfl
@[simp] theorem State.setXb_zf (s : State) (i : RegCode) (v : Byte) : (s.setXb i v).zf = s.zf := by
  unfold State.setXb; split <;> rfl
@[simp] theorem State.setXb_sf (s : State) (i : RegCode) (v : Byte) : (s.setXb i v).sf = s.sf := by
  unfold State.setXb; split <;> rfl
@[simp] theorem State.setXb_mem (s : State) (i : RegCode) (v : Byte) : (s.setXb i v).mem = s.mem := by
  unfold State.setXb; split <;> rfl
@[simp] theorem State.setXb_progLen (s : State) (i : RegCode) (v : Byte) : (s.setXb i v).progLen = s.progLen := by
  unfold State.setXb; split <;> rfl
@[simp] theorem State.setXb_status (s : State) (i : RegCode) (v : Byte) : (s.setXb i v).status = s.status := by
  unfold State.setXb; split <;> rfl
@[simp] theorem State.setXb_fault (s : State) (i : RegCode) (v : Byte) : (s.setXb i v).fault = s.fault := by
  unfold State.setXb; split <;> rfl
@[simp] theorem State.setXb_n (s : State) (i : RegCode) (v : Byte) : (s.setXb i v).n = s.n := by
  unfold State.setXb; split <;> rfl
@[simp] theorem State.setXb_pending (s : State) (i : RegCode) (v : Byte) : (s.setXb i v).pending = s.pending := by
  unfold State.setXb; split <;> rfl

@[simp] theorem State.writeReg_ip (s : State) (w : Width) (i : RegCode) (v : Word) :
    (s.writeReg w i v).ip = s.ip := by
  cases w <;> simp [State.writeReg]
@[simp] theorem State.writeReg_zf (s : State) (w : Width) (i : RegCode) (v : Word) :
    (s.writeReg w i v).zf = s.zf := by
  cases w <;> simp [State.writeReg]
@[simp] theorem State.writeReg_sf (s : State) (w : Width) (i : RegCode) (v : Word) :
    (s.writeReg w i v).sf = s.sf := by
  cases w <;> simp [State.writeReg]
@[simp] theorem State.writeReg_mem (s : State) (w : Width) (i : RegCode) (v : Word) :
    (s.writeReg w i v).mem = s.mem := by
  cases w <;> simp [State.writeReg]
@[simp] theorem State.writeReg_progLen (s : State) (w : Width) (i : RegCode) (v : Word) :
    (s.writeReg w i v).progLen = s.progLen := by
  cases w <;> simp [State.writeReg]
@[simp] theorem State.writeReg_status (s : State) (w : Width) (i : RegCode) (v : Word) :
    (s.writeReg w i v).status = s.status := by
  cases w <;> simp [State.writeReg]
@[simp] theorem State.writeReg_fault (s : State) (w : Width) (i : RegCode) (v : Word) :
    (s.writeReg w i v).fault = s.fault := by
  cases w <;> simp [State.writeReg]
@[simp] theorem State.writeReg_n (s : State) (w : Width) (i : RegCode) (v : Word) :
    (s.writeReg w i v).n = s.n := by
  cases w <;> simp [State.writeReg]
@[simp] theorem State.writeReg_pending (s : State) (w : Width) (i : RegCode) (v : Word) :
    (s.writeReg w i v).pending = s.pending := by
  cases w <;> simp [State.writeReg]

/-- Counting changes nothing but `n`. -/
@[simp] theorem State.complete_regs (s : State) : s.complete.regs = s.regs := by
  unfold State.complete; split <;> rfl
@[simp] theorem State.complete_ip (s : State) : s.complete.ip = s.ip := by
  unfold State.complete; split <;> rfl
@[simp] theorem State.complete_zf (s : State) : s.complete.zf = s.zf := by
  unfold State.complete; split <;> rfl
@[simp] theorem State.complete_sf (s : State) : s.complete.sf = s.sf := by
  unfold State.complete; split <;> rfl
@[simp] theorem State.complete_mem (s : State) : s.complete.mem = s.mem := by
  unfold State.complete; split <;> rfl
@[simp] theorem State.complete_progLen (s : State) : s.complete.progLen = s.progLen := by
  unfold State.complete; split <;> rfl
@[simp] theorem State.complete_status (s : State) : s.complete.status = s.status := by
  unfold State.complete; split <;> rfl
@[simp] theorem State.complete_fault (s : State) : s.complete.fault = s.fault := by
  unfold State.complete; split <;> rfl
@[simp] theorem State.complete_pending (s : State) : s.complete.pending = s.pending := by
  unfold State.complete; split <;> rfl

end Sys2Proof.Machine
end

