-- ==== Sys2Proof/Laws/Registers.lean ====
section
/-! SUPPORT. Bytes of words and the register file: halves of a joined word, a register read after a register write. -/

namespace Sys2Proof

theorem toNat_joinBytes (lo hi : Byte) : (joinBytes lo hi).toNat = lo.toNat + 256 * hi.toNat := by
  have h := lo.isLt
  simp only [joinBytes, BitVec.toNat_append, Nat.shiftLeft_eq]
  have := Nat.two_pow_add_eq_or_of_lt h hi.toNat
  rw [Nat.mul_comm hi.toNat, ← this]; omega

@[simp] theorem toNat_zext16 (v : Byte) : (zext16 v).toNat = v.toNat := by
  have h := v.isLt
  simp only [zext16, BitVec.toNat_setWidth]; omega

theorem toNat_lowByte (v : Word) : (lowByte v).toNat = v.toNat % 256 := by
  simp [lowByte, BitVec.extractLsb'_toNat]

theorem toNat_highByte (v : Word) : (highByte v).toNat = v.toNat / 256 := by
  have h := v.isLt
  simp only [highByte, BitVec.extractLsb'_toNat, Nat.shiftRight_eq_div_pow]; omega

@[simp] theorem lowByte_joinBytes (lo hi : Byte) : lowByte (joinBytes lo hi) = lo := by
  have h := lo.isLt
  apply BitVec.eq_of_toNat_eq
  rw [toNat_lowByte, toNat_joinBytes]; omega

@[simp] theorem highByte_joinBytes (lo hi : Byte) : highByte (joinBytes lo hi) = hi := by
  have h := lo.isLt
  apply BitVec.eq_of_toNat_eq
  rw [toNat_highByte, toNat_joinBytes]; omega

@[simp] theorem joinBytes_lowByte_highByte (v : Word) : joinBytes (lowByte v) (highByte v) = v := by
  apply BitVec.eq_of_toNat_eq
  rw [toNat_joinBytes, toNat_lowByte, toNat_highByte]; omega

@[simp] theorem lowByte_zext16 (v : Byte) : lowByte (zext16 v) = v := by
  have h := v.isLt
  apply BitVec.eq_of_toNat_eq
  rw [toNat_lowByte, toNat_zext16]; omega

namespace Machine

/-- A word register read after a word register write. -/
theorem State.x_setX (s : State) (i j : RegCode) (v : Word) : (s.setX i v).x j = if j = i then v else s.x j := by
  simp only [State.x, State.setX, Fin.getElem_fin, Vector.getElem_set]
  by_cases h : j = i
  · simp [h]
  · have : ¬ (i : Nat) = j := fun e => h (Fin.ext e.symm)
    simp [h, this]

@[simp] theorem State.x_setX_self (s : State) (i : RegCode) (v : Word) : (s.setX i v).x i = v := by
  rw [State.x_setX, if_pos rfl]

theorem State.x_setX_of_ne (s : State) {i j : RegCode} (h : j ≠ i) (v : Word) : (s.setX i v).x j = s.x j := by
  rw [State.x_setX, if_neg h]

/-- A byte register write is a word register write to its home. -/
theorem State.setXb_eq_setX (s : State) (i : RegCode) (v : Byte) : ∃ u, s.setXb i v = s.setX (byteHome i) u := by
  unfold State.setXb; split <;> exact ⟨_, rfl⟩

/-- A register write at either width changes `regs` alone. -/
theorem State.writeReg_eq (s : State) (w : Width) (i : RegCode) (v : Word) :
    s.writeReg w i v = { s with regs := (s.writeReg w i v).regs } := by
  cases w with
  | byte => obtain ⟨u, hu⟩ := s.setXb_eq_setX i (lowByte v); simp only [State.writeReg, hu]; rfl
  | word => rfl

end Machine
end Sys2Proof
end

