-- ==== Sys2Proof/Laws/Decode.lean ====
section
/-! SUPPORT. The decoder's parts, one law each: fields of a composed byte, what each reader does on the bytes the encoder writes,
and that a reader only ever takes bytes from the front of its source (R82, R83, R88). -/

namespace Sys2Proof

/-! ## Fields -/

theorem modField_compose (m : BitVec 2) (r f : BitVec 3) : modField (m ++ r ++ f : BitVec 8) = m := by
  revert m r f; decide

theorem regField_compose (m : BitVec 2) (r f : BitVec 3) : regField (m ++ r ++ f : BitVec 8) = r := by
  revert m r f; decide

theorem rmField_compose (m : BitVec 2) (r f : BitVec 3) : rmField (m ++ r ++ f : BitVec 8) = f := by
  revert m r f; decide

@[simp] theorem regOf_regBits (c : RegCode) : regOf (regBits c) = c := rfl

@[simp] theorem regBits_regOf (f : BitVec 3) : regBits (regOf f) = f := rfl

@[simp] theorem EaMode.ofField_bits (m : EaMode) : EaMode.ofField m.bits = m := by cases m <;> rfl

@[simp] theorem EaMode.bits_ofField (f : BitVec 3) : (EaMode.ofField f).bits = f := by revert f; decide

/-! ## Readers on the encoder's bytes -/

@[simp] theorem next8_cons (b : Byte) (bs : List Byte) (n : Nat) : next8 ⟨b :: bs, n⟩ = .ok (b, ⟨bs, n + 1⟩) := rfl

@[simp] theorem next8_nil (n : Nat) : next8 ⟨[], n⟩ = .error (.outOfBounds n) := rfl

@[simp] theorem next16_cons (lo hi : Byte) (bs : List Byte) (n : Nat) :
    next16 ⟨lo :: hi :: bs, n⟩ = .ok (joinBytes lo hi, ⟨bs, n + 1 + 1⟩) := rfl

theorem next16_wordBytes (v : Word) (bs : List Byte) (n : Nat) :
    next16 ⟨wordBytes v ++ bs, n⟩ = .ok (v, ⟨bs, n + 2⟩) := by
  simp [wordBytes]

theorem nextImm_bytes (imm : Imm) (bs : List Byte) (n : Nat) :
    nextImm imm.width ⟨imm.bytes ++ bs, n⟩ = .ok (imm, ⟨bs, n + imm.bytes.length⟩) := by
  cases imm with
  | imm8 v => rfl
  | imm16 v => simp only [Imm.width, Imm.bytes, nextImm, next16_wordBytes]; rfl

theorem nextRm_tail (rm : RmOp) (h : rm.wf = true) (bs : List Byte) (n : Nat) :
    nextRm rm.modBits rm.rmBits ⟨rm.tail ++ bs, n⟩ = .ok (rm, ⟨bs, n + rm.tail.length⟩) := by
  cases rm with
  | reg c => rfl
  | mem m =>
    cases m with
    | direct a =>
      change (next16 ⟨wordBytes a ++ bs, n⟩ >>= fun p => pure (RmOp.mem (.direct p.1), p.2)) = _
      rw [next16_wordBytes]; rfl
    | ea mode d =>
      cases d with
      | none => cases mode <;> first | rfl | (exact absurd h (by decide))
      | d8 v => simp only [RmOp.modBits, RmOp.rmBits, RmOp.tail, nextRm]; cases mode <;> rfl
      | d16 v =>
        change (next16 ⟨wordBytes v ++ bs, n⟩ >>= fun p => pure (RmOp.mem (.ea (EaMode.ofField mode.bits) (.d16 p.1)), p.2)) = _
        rw [next16_wordBytes, EaMode.ofField_bits]; rfl

end Sys2Proof
end

