-- ==== Sys2Proof/Laws/Memory.lean ====
section
/-! SUPPORT. Memory: a read after a write, the canonical form, and that equal contents are equal data. -/

namespace Sys2Proof.Machine

@[simp] theorem Memory.read_nil (a : Nat) : Memory.read [] a = 0 := rfl

theorem Memory.read_cons (b : Nat) (v : Byte) (m : Memory) (a : Nat) :
    Memory.read ((b, v) :: m) a = if a = b then v else Memory.read m a := rfl

theorem Memory.read_dropCell (m : Memory) (a b : Nat) :
    Memory.read (m.dropCell a) b = if b = a then 0 else m.read b := by
  induction m with
  | nil => simp [Memory.dropCell]
  | cons c m ih =>
    obtain ⟨k, u⟩ := c
    by_cases h : k = a
    · subst h; simp only [Memory.dropCell, if_true, ih, Memory.read_cons]; split <;> simp_all
    · simp only [Memory.dropCell, if_neg h, Memory.read_cons, ih]; grind

theorem Memory.read_putCell_dropCell (m : Memory) (a b : Nat) (v : Byte) :
    Memory.read ((m.dropCell a).putCell a v) b = if b = a then v else m.read b := by
  induction m with
  | nil => simp [Memory.dropCell, Memory.putCell, Memory.read_cons]
  | cons c m ih =>
    obtain ⟨k, u⟩ := c
    by_cases h : k = a
    · subst h; simp only [Memory.dropCell, if_true, ih, Memory.read_cons]; split <;> simp_all
    · simp only [Memory.dropCell, if_neg h, Memory.putCell]
      split
      · simp only [Memory.read_cons, Memory.read_dropCell]; grind
      · simp only [Memory.read_cons, ih]; grind

/-- A read after a write: the value written there, what was there everywhere else. -/
theorem Memory.read_write (m : Memory) (a b : Nat) (v : Byte) :
    (m.write a v).read b = if b = a then v else m.read b := by
  unfold Memory.write
  split
  · rename_i h; subst h; exact Memory.read_dropCell m a b
  · exact Memory.read_putCell_dropCell m a b v

theorem Memory.wfFrom_cons (lo a : Nat) (v : Byte) (m : Memory) :
    Memory.wfFrom lo ((a, v) :: m) = true ↔
      lo ≤ a ∧ a < Config.memSize ∧ v ≠ 0 ∧ Memory.wfFrom (a + 1) m = true := by
  simp [Memory.wfFrom, and_assoc]

theorem Memory.wfFrom_mono {lo lo' : Nat} (h : lo' ≤ lo) {m : Memory} (hm : m.wfFrom lo = true) :
    m.wfFrom lo' = true := by
  cases m with
  | nil => rfl
  | cons c m =>
    obtain ⟨a, v⟩ := c
    rw [Memory.wfFrom_cons] at *
    exact ⟨by omega, hm.2⟩

theorem Memory.wfFrom_dropCell (a : Nat) {m : Memory} : ∀ {lo : Nat}, m.wfFrom lo = true →
    Memory.wfFrom lo (m.dropCell a) = true := by
  induction m with
  | nil => intro lo _; rfl
  | cons c m ih =>
    obtain ⟨k, u⟩ := c
    intro lo h
    rw [Memory.wfFrom_cons] at h
    by_cases hk : k = a
    · simp only [Memory.dropCell, if_pos hk]
      exact Memory.wfFrom_mono (by omega) (ih h.2.2.2)
    · simp only [Memory.dropCell, if_neg hk, Memory.wfFrom_cons]
      exact ⟨h.1, h.2.1, h.2.2.1, ih h.2.2.2⟩

theorem Memory.wfFrom_putCell_dropCell {a : Nat} {v : Byte} (ha : a < Config.memSize) (hv : v ≠ 0) {m : Memory} :
    ∀ {lo : Nat}, lo ≤ a → m.wfFrom lo = true → Memory.wfFrom lo ((m.dropCell a).putCell a v) = true := by
  induction m with
  | nil => intro lo hlo _; exact (Memory.wfFrom_cons lo a v []).2 ⟨hlo, ha, hv, rfl⟩
  | cons c m ih =>
    obtain ⟨k, u⟩ := c
    intro lo hlo h
    rw [Memory.wfFrom_cons] at h
    by_cases hk : k = a
    · simp only [Memory.dropCell, if_pos hk]
      exact ih hlo (Memory.wfFrom_mono (by omega) h.2.2.2)
    · simp only [Memory.dropCell, if_neg hk, Memory.putCell]
      split
      · rename_i hlt
        rw [Memory.wfFrom_cons, Memory.wfFrom_cons]
        exact ⟨hlo, ha, hv, by omega, h.2.1, h.2.2.1, Memory.wfFrom_dropCell a h.2.2.2⟩
      · rename_i hlt
        rw [Memory.wfFrom_cons]
        exact ⟨h.1, h.2.1, h.2.2.1, ih (by omega) h.2.2.2⟩

/-- A write inside memory keeps the canonical form. -/
theorem Memory.wf_write {m : Memory} (h : m.wf = true) {a : Nat} (ha : a < Config.memSize) (v : Byte) :
    (m.write a v).wf = true := by
  unfold Memory.write
  split
  · exact Memory.wfFrom_dropCell a h
  · rename_i hv; exact Memory.wfFrom_putCell_dropCell ha hv (Nat.zero_le a) h

/-- `MemWrite` keeps the canonical form. -/
theorem memWrite_wf {m m' : Memory} (h : m.wf = true) {w : Width} {a v : Word} (hw : memWrite m w a v = .ok m') :
    m'.wf = true := by
  have ha := a.isLt
  cases w with
  | byte =>
    simp only [memWrite, Except.ok.injEq] at hw
    exact hw ▸ Memory.wf_write h (by simp only [Config.memSize]; omega) _
  | word =>
    simp only [memWrite] at hw
    split at hw
    · rename_i hle
      simp only [Except.ok.injEq] at hw
      exact hw ▸ Memory.wf_write (Memory.wf_write h (by simp only [Config.memSize]; omega) _)
        (by simp only [Config.memSize]; omega) _
    · cases hw

/-- Placing bytes keeps the canonical form. -/
theorem Memory.wf_place (bs : List Byte) : ∀ {m : Memory} (a : Nat), m.wf = true → (m.place a bs).wf = true := by
  induction bs with
  | nil => intro m a h; exact h
  | cons b bs ih =>
    intro m a h
    unfold Memory.place
    apply ih
    split
    · rename_i ha; exact Memory.wf_write h ha b
    · exact h

/-- A canonical memory from `lo` on holds nothing below `lo`. -/
theorem Memory.read_of_lt_wfFrom {m : Memory} : ∀ {lo a : Nat}, m.wfFrom lo = true → a < lo → m.read a = 0 := by
  induction m with
  | nil => intros; rfl
  | cons c m ih =>
    obtain ⟨k, u⟩ := c
    intro lo a h ha
    rw [Memory.wfFrom_cons] at h
    rw [Memory.read_cons, if_neg (by omega)]
    exact ih h.2.2.2 (by omega)

theorem Memory.ext_wfFrom {m m' : Memory} : ∀ {lo : Nat}, m.wfFrom lo = true → m'.wfFrom lo = true →
    (∀ a, m.read a = m'.read a) → m = m' := by
  induction m generalizing m' with
  | nil =>
    intro lo _ h' hr
    cases m' with
    | nil => rfl
    | cons c m' =>
      obtain ⟨k, u⟩ := c
      rw [Memory.wfFrom_cons] at h'
      exact absurd (by simpa [Memory.read_cons] using (hr k).symm) h'.2.2.1
  | cons c m ih =>
    obtain ⟨k, u⟩ := c
    intro lo h h' hr
    rw [Memory.wfFrom_cons] at h
    cases m' with
    | nil => exact absurd (by simpa [Memory.read_cons] using hr k) h.2.2.1
    | cons c' m' =>
      obtain ⟨k', u'⟩ := c'
      rw [Memory.wfFrom_cons] at h'
      have hk : k = k' := by
        rcases Nat.lt_trichotomy k k' with hlt | heq | hgt
        · have := hr k
          rw [Memory.read_cons, Memory.read_cons, if_pos rfl, if_neg (by omega),
            Memory.read_of_lt_wfFrom h'.2.2.2 (by omega)] at this
          exact absurd this h.2.2.1
        · exact heq
        · have := hr k'
          rw [Memory.read_cons, Memory.read_cons, if_pos rfl, if_neg (by omega),
            Memory.read_of_lt_wfFrom h.2.2.2 (by omega)] at this
          exact absurd this.symm h'.2.2.1
      subst hk
      have hu : u = u' := by simpa [Memory.read_cons] using hr k
      subst hu
      congr 1
      refine ih h.2.2.2 h'.2.2.2 fun a => ?_
      by_cases ha : a < k + 1
      · rw [Memory.read_of_lt_wfFrom h.2.2.2 ha, Memory.read_of_lt_wfFrom h'.2.2.2 ha]
      · have := hr a
        rwa [Memory.read_cons, Memory.read_cons, if_neg (by omega), if_neg (by omega)] at this

/-- Equal contents are equal data: two canonical memories that read the same everywhere are the same list. -/
theorem Memory.ext_of_wf {m m' : Memory} (h : m.wf = true) (h' : m'.wf = true) (hr : ∀ a, m.read a = m'.read a) :
    m = m' := Memory.ext_wfFrom h h' hr

end Sys2Proof.Machine
end

