-- ==== Sys2Proof/Laws/Operands.lean ====
section
/-! SUPPORT. What operand access can do: when it stops, and what it answers when it does not (R44, R113, R114). -/

namespace Sys2Proof.Machine

/-- An access of width `w` at address `a` stays inside memory: the condition of R44. -/
abbrev FitsAt (w : Width) (a : Word) : Prop := w = .word → a ≠ 0xFFFF

theorem toNat_add_one_le_iff (a : Word) : a.toNat + 1 ≤ 0xFFFF ↔ a ≠ 0xFFFF := by
  have hlt := a.isLt
  constructor
  · rintro h rfl
    exact absurd h (by decide)
  · intro h
    by_contra hn
    exact h (BitVec.eq_of_toNat_eq (show a.toNat = 65535 by omega))

theorem memRead_ok (m : Memory) {w : Width} {a : Word} (h : FitsAt w a) :
    memRead m w a = .ok (match w with
      | .byte => zext16 (m.read a.toNat)
      | .word => joinBytes (m.read a.toNat) (m.read (a.toNat + 1))) := by
  cases w with
  | byte => rfl
  | word => exact if_pos ((toNat_add_one_le_iff a).2 (h rfl))

theorem memRead_error {m : Memory} {w : Width} {a : Word} {c : Cause} (h : memRead m w a = .error c) :
    w = .word ∧ a = 0xFFFF ∧ c = outOfBoundsAt 0x10000 := by
  cases w with
  | byte => cases h
  | word =>
    simp only [memRead] at h
    split at h
    · cases h
    · rename_i hn
      have ha : a = 0xFFFF := by
        by_contra hne; exact hn ((toNat_add_one_le_iff a).2 hne)
      subst ha
      exact ⟨rfl, rfl, (Except.error.inj h).symm⟩

theorem memWrite_error {m : Memory} {w : Width} {a v : Word} {c : Cause} (h : memWrite m w a v = .error c) :
    w = .word ∧ a = 0xFFFF ∧ c = outOfBoundsAt 0x10000 := by
  cases w with
  | byte => cases h
  | word =>
    simp only [memWrite] at h
    split at h
    · cases h
    · rename_i hn
      have ha : a = 0xFFFF := by
        by_contra hne; exact hn ((toNat_add_one_le_iff a).2 hne)
      subst ha
      exact ⟨rfl, rfl, (Except.error.inj h).symm⟩

/-- The memory a fitting write leaves, read anywhere. -/
theorem memWrite_ok (m : Memory) {w : Width} {a : Word} (h : FitsAt w a) (v : Word) :
    ∃ m', memWrite m w a v = .ok m' ∧ ∀ b, m'.read b =
      if b = a.toNat then lowByte v
      else if w = .word ∧ b = a.toNat + 1 then highByte v else m.read b := by
  cases w with
  | byte =>
    refine ⟨_, rfl, fun b => ?_⟩
    rw [Memory.read_write]; simp
  | word =>
    refine ⟨_, if_pos ((toNat_add_one_le_iff a).2 (h rfl)), fun b => ?_⟩
    rw [Memory.read_write, Memory.read_write]
    by_cases h1 : b = a.toNat
    · simp [h1]
    · simp [h1]

/-- An operand access of width `w` at location `l` stays inside memory. -/
abbrev State.Fits (s : State) (w : Width) (l : Loc) : Prop :=
  match l with
  | .mem m => FitsAt w (s.ea m)
  | .reg _ => True
  | .imm _ => True

/-- Reading an operand stops only on a word at `0xFFFF`. -/
theorem State.readOp_error {s : State} {w : Width} {l : Loc} {c : Cause} (h : s.readOp w l = .error c) :
    ∃ m, l = .mem m ∧ w = .word ∧ s.ea m = 0xFFFF ∧ c = outOfBoundsAt 0x10000 := by
  cases l with
  | reg i => cases h
  | imm v => cases h
  | mem m => exact ⟨m, rfl, memRead_error h⟩

theorem State.readOp_ok {s : State} {w : Width} {l : Loc} (h : s.Fits w l) : ∃ v, s.readOp w l = .ok v := by
  cases hr : s.readOp w l with
  | ok v => exact ⟨v, rfl⟩
  | error c =>
    obtain ⟨m, rfl, hw, ha, _⟩ := State.readOp_error hr
    exact absurd ha (h hw)

/-- Everything a completed operand write can be. -/
theorem State.writeOp_ok_cases {s t : State} {w : Width} {l : Loc} {v : Word} (h : s.writeOp w l v = .ok t) :
    (∃ i, l = .reg i ∧ t = s.writeReg w i v) ∨
      (∃ m mem, l = .mem m ∧ memWrite s.mem w (s.ea m) v = .ok mem ∧ t = { s with mem := mem }) := by
  cases l with
  | reg i => exact .inl ⟨i, rfl, (Except.ok.inj h).symm⟩
  | imm u => cases h
  | mem m =>
    simp only [State.writeOp] at h
    split at h
    · rename_i mem hm; exact .inr ⟨m, mem, rfl, hm, (Except.ok.inj h).symm⟩
    · cases h

/-- Everything a stopped operand write can be. -/
theorem State.writeOp_error {s : State} {w : Width} {l : Loc} {v : Word} {c : Cause} (h : s.writeOp w l v = .error c) :
    (∃ u, l = .imm u ∧ c = writeToImmediate) ∨
      (∃ m, l = .mem m ∧ w = .word ∧ s.ea m = 0xFFFF ∧ c = outOfBoundsAt 0x10000) := by
  cases l with
  | reg i => cases h
  | imm u => exact .inl ⟨u, rfl, (Except.error.inj h).symm⟩
  | mem m =>
    simp only [State.writeOp] at h
    split at h
    · cases h
    · rename_i c' hm
      obtain rfl := Except.error.inj h
      exact .inr ⟨m, rfl, memWrite_error hm⟩

/-- An operand write touches registers or memory alone, and keeps memory's canonical form. -/
theorem State.writeOp_frame {s t : State} {w : Width} {l : Loc} {v : Word} (h : s.writeOp w l v = .ok t) :
    t = { s with regs := t.regs, mem := t.mem } ∧ (s.mem.wf = true → t.mem.wf = true) := by
  rcases State.writeOp_ok_cases h with ⟨i, rfl, rfl⟩ | ⟨m, mem, rfl, hm, rfl⟩
  · refine ⟨?_, fun hw => by simpa using hw⟩
    conv_lhs => rw [State.writeReg_eq]
    simp
  · exact ⟨rfl, fun hw => memWrite_wf hw hm⟩

end Sys2Proof.Machine
end

