-- ==== Sys2Proof/Laws/Exec.lean ====
section
/-! SUPPORT. What the shared operations of the instructions can do, said once: every outcome of `mov`, `alu` and `jump`, and
`exec` as the run of the decoder's record (R85). -/

namespace Sys2Proof.Machine

/-- Every outcome of a MOV: a fault, or the source's value written to the destination. -/
theorem mov_cases (w : Width) (dst src : Loc) (s : State) :
    (∃ c, mov w dst src s = .next (s.raise c) ∧
      (s.readOp w src = .error c ∨ ∃ v, s.readOp w src = .ok v ∧ s.writeOp w dst v = .error c)) ∨
    (∃ v t, s.readOp w src = .ok v ∧ s.writeOp w dst v = .ok t ∧ mov w dst src s = .next t) := by
  unfold mov
  cases hr : s.readOp w src with
  | error c => exact .inl ⟨c, rfl, .inl rfl⟩
  | ok v =>
    cases hw : s.writeOp w dst v with
    | error c => exact .inl ⟨c, by simp [hw], .inr ⟨v, rfl, hw⟩⟩
    | ok t => exact .inr ⟨v, t, rfl, hw, by simp [hw]⟩

/-- Every outcome of an ALU write-back. -/
theorem aluWriteBack_cases (k : AluKind) (w : Width) (dst : Loc) (r : Word) (s : State) :
    (k = .cmp ∧ aluWriteBack k w dst r s = .next s) ∨
    (k ≠ .cmp ∧ ∃ c, s.writeOp w dst r = .error c ∧ aluWriteBack k w dst r s = .next (s.raise c)) ∨
    (k ≠ .cmp ∧ ∃ t, s.writeOp w dst r = .ok t ∧ aluWriteBack k w dst r s = .next t) := by
  cases k with
  | cmp => exact .inl ⟨rfl, rfl⟩
  | add =>
    cases hw : s.writeOp w dst r with
    | error c => exact .inr (.inl ⟨by decide, c, rfl, by simp [aluWriteBack, hw]⟩)
    | ok t => exact .inr (.inr ⟨by decide, t, rfl, by simp [aluWriteBack, hw]⟩)
  | sub =>
    cases hw : s.writeOp w dst r with
    | error c => exact .inr (.inl ⟨by decide, c, rfl, by simp [aluWriteBack, hw]⟩)
    | ok t => exact .inr (.inr ⟨by decide, t, rfl, by simp [aluWriteBack, hw]⟩)

/-- Every outcome of the ALU operation: a fault at an operand read, or the flags set and the result written back. -/
theorem alu_cases (k : AluKind) (w : Width) (dst src : Loc) (s : State) :
    (∃ c, alu k w dst src s = .next (s.raise c) ∧ (s.readOp w dst = .error c ∨ s.readOp w src = .error c)) ∨
    (∃ a b, s.readOp w dst = .ok a ∧ s.readOp w src = .ok b ∧
      alu k w dst src s = aluWriteBack k w dst (aluResult k w a b) (s.setZS w (aluResult k w a b))) := by
  unfold alu
  cases hd : s.readOp w dst with
  | error c => exact .inl ⟨c, rfl, .inl rfl⟩
  | ok a =>
    cases hs : s.readOp w src with
    | error c => exact .inl ⟨c, rfl, .inr rfl⟩
    | ok b => exact .inr ⟨a, b, rfl, rfl, rfl⟩

/-- Every outcome of a taken jump. -/
theorem jump_cases (d8 : Byte) (s : State) :
    (0 ≤ jumpTarget s.ip d8 ∧ jumpTarget s.ip d8 ≤ 0xFFFF ∧
      jump d8 s = .next { s with ip := BitVec.ofInt 16 (jumpTarget s.ip d8) }) ∨
    (¬ (0 ≤ jumpTarget s.ip d8 ∧ jumpTarget s.ip d8 ≤ 0xFFFF) ∧
      jump d8 s = .next (s.raise (outOfBoundsAt (jumpTarget s.ip d8)))) := by
  unfold jump
  split
  · rename_i h; exact .inl ⟨h.1, h.2, rfl⟩
  · rename_i h; exact .inr ⟨h, rfl⟩

/-- The run of a decoder's record: the pseudocode of R130, R150, R181 and R182. -/
def runRecord (r : Record) (s : State) : Result :=
  match r with
  | .mov w dst src => mov w dst src s
  | .op k w dst src => alu k w dst src s
  | .je d8 => execJe d8 s
  | .jne d8 => execJne d8 s

/-- Every instruction runs the record it decodes to. -/
theorem exec_eq_runRecord (i : Instr) (s : State) : exec i s = runRecord i.record s := by
  cases i <;> rfl

/-- The destination of a record an instruction is: never an immediate (R85). -/
theorem Instr.record_dst_ne_imm (i : Instr) :
    (∀ w dst src, i.record = .mov w dst src → ∀ u, dst ≠ .imm u) ∧
    (∀ k w dst src, i.record = .op k w dst src → ∀ u, dst ≠ .imm u) := by
  constructor
  · intro w dst src h u hu
    subst hu
    cases i <;> simp only [Instr.record, Dir.operands, RmOp.loc] at h <;> (try split at h) <;> (try split at h) <;> simp_all
  · intro k w dst src h u hu
    subst hu
    cases i <;> simp only [Instr.record, Dir.operands, RmOp.loc] at h <;> (try split at h) <;> (try split at h) <;> simp_all

/-- Everything executing an instruction can do: raise OutOfBounds and nothing else, or answer a state that differs in
registers, memory, flags and `ip` alone, memory staying canonical. It always answers a next state. -/
theorem exec_cases (i : Instr) (s : State) :
    (∃ c, c.kind = .outOfBounds ∧ exec i s = .next (s.raise c)) ∨
    (∃ t, exec i s = .next t ∧ t = { s with regs := t.regs, mem := t.mem, zf := t.zf, sf := t.sf, ip := t.ip } ∧
      (s.mem.wf = true → t.mem.wf = true)) := by
  rw [exec_eq_runRecord]
  have himm := Instr.record_dst_ne_imm i
  cases hr : i.record with
  | mov w dst src =>
    simp only [runRecord]
    rcases mov_cases w dst src s with ⟨c, hm, h⟩ | ⟨v, t, hv, ht, hm⟩
    · refine .inl ⟨c, ?_, hm⟩
      rcases h with h | ⟨v, _, h⟩
      · obtain ⟨_, _, _, _, rfl⟩ := State.readOp_error h; rfl
      · rcases State.writeOp_error h with ⟨u, hu, _⟩ | ⟨_, _, _, _, rfl⟩
        · exact absurd hu (himm.1 _ _ _ hr u)
        · rfl
    · have hf := State.writeOp_frame ht
      refine .inr ⟨t, hm, ?_, hf.2⟩
      rw [hf.1]
  | op k w dst src =>
    simp only [runRecord]
    rcases alu_cases k w dst src s with ⟨c, hm, h⟩ | ⟨a, b, hv, hb, hm⟩
    · refine .inl ⟨c, ?_, hm⟩
      rcases h with h | h <;> (obtain ⟨_, _, _, _, rfl⟩ := State.readOp_error h; rfl)
    · rw [hm]
      rcases aluWriteBack_cases k w dst (aluResult k w a b) (s.setZS w (aluResult k w a b)) with
        ⟨_, h⟩ | ⟨_, c, hc, h⟩ | ⟨_, t, ht, h⟩
      · exact .inr ⟨_, h, rfl, id⟩
      · exfalso
        rcases State.writeOp_error hc with ⟨u, hu, _⟩ | ⟨m, rfl, hw, he, _⟩
        · exact himm.2 _ _ _ _ hr u hu
        · subst hw
          simp only [State.setZS_ea] at he
          simp only [State.readOp, memRead, he] at hv
          cases hv
      · have hf := State.writeOp_frame ht
        refine .inr ⟨t, h, ?_, hf.2⟩
        rw [hf.1]; rfl
  | je d =>
    simp only [runRecord, execJe]
    split
    · rcases jump_cases d s with ⟨_, _, h⟩ | ⟨_, h⟩
      · exact .inr ⟨_, h, rfl, id⟩
      · exact .inl ⟨_, rfl, h⟩
    · exact .inr ⟨s, rfl, rfl, id⟩
  | jne d =>
    simp only [runRecord, execJne]
    split
    · exact .inr ⟨s, rfl, rfl, id⟩
    · rcases jump_cases d s with ⟨_, _, h⟩ | ⟨_, h⟩
      · exact .inr ⟨_, h, rfl, id⟩
      · exact .inl ⟨_, rfl, h⟩

end Sys2Proof.Machine
end

