-- ==== Sys2Proof/Laws/Sequencer.lean ====
section
/-! SUPPORT. What one step can do, said once (R110), and the induction over a run packaged once. -/

namespace Sys2Proof.Machine

/-- Every outcome of a step: no step in a stopped block, the end of the run, a fault in decoding, a fault at the `ip` advance,
or the decoded instruction executed with `ip` advanced. -/
theorem step_cases (s : State) :
    (s.status = .halted ∧ step s = .fault .noStepHalted) ∨
    (s.status = .faulted ∧ step s = .fault .noStepFaulted) ∨
    (s.status = .running ∧ s.progLen ≤ s.ip.toNat ∧ step s = .next s.halt) ∨
    (s.status = .running ∧ s.ip.toNat < s.progLen ∧ ∃ e, decode s.fetchBytes = .error e ∧
      step s = .next (s.raiseDecode e)) ∨
    (s.status = .running ∧ s.ip.toNat < s.progLen ∧ ∃ i len, decode s.fetchBytes = .ok (i, len) ∧
      0xFFFF < s.ip.toNat + len ∧ step s = .next (s.raiseAdvance len)) ∨
    (s.status = .running ∧ s.ip.toNat < s.progLen ∧ ∃ i len, decode s.fetchBytes = .ok (i, len) ∧
      s.ip.toNat + len ≤ 0xFFFF ∧ step s = retire (exec i (s.advance len))) := by
  cases hs : s.status with
  | halted => exact .inl ⟨rfl, by simp [step, State.fetchDecode, hs]⟩
  | faulted => exact .inr (.inl ⟨rfl, by simp [step, State.fetchDecode, hs]⟩)
  | running =>
    by_cases hl : s.progLen ≤ s.ip.toNat
    · exact .inr (.inr (.inl ⟨rfl, hl, by simp [step, State.fetchDecode, hs, hl]⟩))
    · have hl' : s.ip.toNat < s.progLen := by omega
      cases hd : decode s.fetchBytes with
      | error e =>
        exact .inr (.inr (.inr (.inl ⟨rfl, hl', e, rfl, by simp [step, State.fetchDecode, hs, hl, hd]⟩)))
      | ok p =>
        obtain ⟨i, len⟩ := p
        by_cases ha : s.ip.toNat + len ≤ 0xFFFF
        · exact .inr (.inr (.inr (.inr (.inr
            ⟨rfl, hl', i, len, rfl, ha, by simp [step, State.fetchDecode, hs, hl, hd, ha]⟩))))
        · exact .inr (.inr (.inr (.inr (.inl
            ⟨rfl, hl', i, len, rfl, by omega, by simp [step, State.fetchDecode, hs, hl, hd, ha]⟩))))

/-- What every step keeps, every run keeps. -/
theorem run_keeps {P : State → Prop} (hP : ∀ s t, P s → step s = .next t → P t) :
    ∀ (k : Nat) (s t : State), P s → Sys2Proof.core.run k s = .next t → P t := by
  intro k
  induction k with
  | zero => intro s t h hr; cases hr; exact h
  | succ k ih =>
    intro s t h hr
    simp only [Host.Core.run] at hr
    split at hr
    · rename_i u hu; exact ih u t (hP s u h hu) hr
    · cases hr
    · cases hr

end Sys2Proof.Machine
end

