-- ==== Sys2Proof/Tests/Slice0.lean ====
section
/-! SUPPORT. Tests of the model against words and results written out from the spec (95_test_vectors.md and the rules' own
examples), and witnesses that the statements' hypotheses can be met. -/

namespace Sys2Proof.Tests

open Sys2Proof.Machine Sys2Proof.Claims

/-! ## Helpers -/

/-- The state of a `next` outcome. -/
def nextOf : Result → Option State
  | .next s => some s
  | .fault _ => none
  | .refused _ => none

/-- A running state with some registers and bytes set. -/
def stateWith (regs : List (RegCode × Word)) (bytes : List (Nat × Byte)) : State :=
  let s := regs.foldl (fun s p => s.setX p.1 p.2) State.reset
  { s with mem := bytes.foldl (fun m p => m.write p.1 p.2) [] }

/-- A loaded image with some registers set. -/
def loaded (image : List Byte) (regs : List (RegCode × Word)) : State :=
  match State.load image with
  | some s => regs.foldl (fun s p => s.setX p.1 p.2) s
  | none => State.reset

/-- One step's state, seen through `f`. -/
def afterStep {α : Type} (s : State) (f : State → α) : Option α := (nextOf (step s)).map f

/-- One execution's state, seen through `f`. -/
def afterExec {α : Type} (i : Instr) (s : State) (f : State → α) : Option α := (nextOf (exec i s)).map f

/-- What a decoding answers, without its error. -/
def decoded (bs : List Byte) : Option (Instr × Nat) :=
  match decode bs with
  | .ok p => some p
  | .error _ => none

/-- The error of a decoding that fails. -/
def refusedBy (bs : List Byte) : Option DecodeError :=
  match decode bs with
  | .ok _ => none
  | .error e => some e

/-! ## WellFormed: the one check, through every constructor that has an r/m operand -/

/-- `[bp]` without a displacement: the ill-formed operand (R66). -/
def bareBp : RmOp := .mem (.ea .bp .none)

theorem test_wf_refuses_bare_bp : bareBp.wf = false := by decide
theorem test_wf_refuses_bare_bp_in_mov :
    (Instr.movRmReg .toReg .word 0 bareBp).wf = false ∧ (Instr.movRmImm bareBp (.imm8 0)).wf = false := by decide
theorem test_wf_refuses_bare_bp_in_rm_reg :
    (Instr.addRmReg .toReg .word 0 bareBp).wf = false ∧ (Instr.subRmReg .toReg .word 0 bareBp).wf = false ∧
    (Instr.cmpRmReg .toReg .word 0 bareBp).wf = false := by decide
theorem test_wf_refuses_bare_bp_in_add :
    (Instr.addRmImm80 bareBp 0).wf = false ∧ (Instr.addRmImm81 bareBp 0).wf = false ∧ (Instr.addRmImm83 bareBp 0).wf = false := by decide
theorem test_wf_refuses_bare_bp_in_sub :
    (Instr.subRmImm80 bareBp 0).wf = false ∧ (Instr.subRmImm81 bareBp 0).wf = false ∧ (Instr.subRmImm83 bareBp 0).wf = false := by decide
theorem test_wf_refuses_bare_bp_in_cmp :
    (Instr.cmpRmImm80 bareBp 0).wf = false ∧ (Instr.cmpRmImm81 bareBp 0).wf = false ∧ (Instr.cmpRmImm83 bareBp 0).wf = false := by decide
theorem test_wf_accepts_bp_plus_0 : (RmOp.mem (.ea .bp (.d8 0))).wf = true := by decide

/-! ## Decode: each constructor by a word of 95_test_vectors.md, section 2.1, or of its rule -/

-- 88 = 100010 d=0 w=0; C3 = 11 000 011: mov bl, al
theorem test_decode_movRmReg : decoded [0x88, 0xC3] = some (.movRmReg .toRm .byte 0 (.reg 3), 2) := by decide
-- 89 = 100010 0 1; 86 = 10 000 110; disp16 00 01: mov [bp + 256], ax
theorem test_decode_movRmReg_disp16 :
    decoded [0x89, 0x86, 0x00, 0x01] = some (.movRmReg .toRm .word 0 (.mem (.ea .bp (.d16 0x0100))), 4) := by decide
-- B9 = 1011 w=1 001: mov cx, 3
theorem test_decode_movRegImm : decoded [0xB9, 0x03, 0x00] = some (.movRegImm 1 (.imm16 3), 3) := by decide
-- B1 = 1011 w=0 001: mov cl, 127
theorem test_decode_movRegImm_byte : decoded [0xB1, 0x7F] = some (.movRegImm 1 (.imm8 127), 2) := by decide
-- C7 = 1100011 w=1; 06 = 00 000 110 direct: mov [16], word 1
theorem test_decode_movRmImm :
    decoded [0xC7, 0x06, 0x10, 0x00, 0x01, 0x00] = some (.movRmImm (.mem (.direct 16)) (.imm16 1), 6) := by decide
-- C6 F3 42: reg = 110 is ignored: mov bl, 66 (M15)
theorem test_decode_movRmImm_ignores_reg : decoded [0xC6, 0xF3, 0x42] = some (.movRmImm (.reg 3) (.imm8 0x42), 3) := by decide
-- A0 = 1010000 w=0: mov al, [4660]
theorem test_decode_movAccMem : decoded [0xA0, 0x34, 0x12] = some (.movAccMem .byte 4660, 3) := by decide
-- A3 = 1010001 w=1: mov [2000], ax
theorem test_decode_movMemAcc : decoded [0xA3, 0xD0, 0x07] = some (.movMemAcc .word 2000, 3) := by decide
-- 01 = 00 000 0 d=0 w=1; D8 = 11 011 000: add ax, bx
theorem test_decode_addRmReg : decoded [0x01, 0xD8] = some (.addRmReg .toRm .word 3 (.reg 0), 2) := by decide
-- 2B = 00 101 0 1 1; 42 = 01 000 010: sub ax, [bp + si - 2]
theorem test_decode_subRmReg :
    decoded [0x2B, 0x42, 0xFE] = some (.subRmReg .toReg .word 0 (.mem (.ea .bpSi (.d8 0xFE))), 3) := by decide
-- 38 = 00 111 0 0 0; C4 = 11 000 100: cmp ah, al
theorem test_decode_cmpRmReg : decoded [0x38, 0xC4] = some (.cmpRmReg .toRm .byte 0 (.reg 4), 2) := by decide
-- 80 C3 = 11 000 011: add bl, 255
theorem test_decode_addRmImm80 : decoded [0x80, 0xC3, 0xFF] = some (.addRmImm80 (.reg 3) 255, 3) := by decide
-- 81 C3: add bx, 4660
theorem test_decode_addRmImm81 : decoded [0x81, 0xC3, 0x34, 0x12] = some (.addRmImm81 (.reg 3) 4660, 4) := by decide
-- 83 C3 0A: add bx, 10
theorem test_decode_addRmImm83 : decoded [0x83, 0xC3, 0x0A] = some (.addRmImm83 (.reg 3) 10, 3) := by decide
-- 80 2F = 00 101 111: sub [bx], byte 7
theorem test_decode_subRmImm80 : decoded [0x80, 0x2F, 0x07] = some (.subRmImm80 (.mem (.ea .bx .none)) 7, 3) := by decide
-- 81 2E = 00 101 110 direct: sub [256], word 1
theorem test_decode_subRmImm81 :
    decoded [0x81, 0x2E, 0x00, 0x01, 0x01, 0x00] = some (.subRmImm81 (.mem (.direct 256)) 1, 6) := by decide
-- 83 6A = 01 101 010: sub [bp + si - 2], word 1
theorem test_decode_subRmImm83 :
    decoded [0x83, 0x6A, 0xFE, 0x01] = some (.subRmImm83 (.mem (.ea .bpSi (.d8 0xFE))) 1, 4) := by decide
-- 80 3F = 00 111 111: cmp [bx], byte 7
theorem test_decode_cmpRmImm80 : decoded [0x80, 0x3F, 0x07] = some (.cmpRmImm80 (.mem (.ea .bx .none)) 7, 3) := by decide
-- 81 BF = 10 111 111: cmp [bx + 256], word 4660
theorem test_decode_cmpRmImm81 :
    decoded [0x81, 0xBF, 0x00, 0x01, 0x34, 0x12] = some (.cmpRmImm81 (.mem (.ea .bx (.d16 256))) 4660, 6) := by decide
-- 83 FB = 11 111 011: cmp bx, 5
theorem test_decode_cmpRmImm83 : decoded [0x83, 0xFB, 0x05] = some (.cmpRmImm83 (.reg 3) 5, 3) := by decide
-- 05 = 00 000 10 1: add ax, 32769
theorem test_decode_addAccImm : decoded [0x05, 0x01, 0x80] = some (.addAccImm (.imm16 32769), 3) := by decide
-- 2C = 00 101 10 0: sub al, 127
theorem test_decode_subAccImm : decoded [0x2C, 0x7F] = some (.subAccImm (.imm8 127), 2) := by decide
-- 3D = 00 111 10 1: cmp ax, 0
theorem test_decode_cmpAccImm : decoded [0x3D, 0x00, 0x00] = some (.cmpAccImm (.imm16 0), 3) := by decide
-- 74 02: je 2
theorem test_decode_je : decoded [0x74, 0x02] = some (.je 2, 2) := by decide
-- 75 F8: jne -8
theorem test_decode_jne : decoded [0x75, 0xF8] = some (.jne 0xF8, 2) := by decide

-- F1, F2, F3, D2: what is refused, and why
theorem test_decode_refuses_90 : refusedBy [0x90] = some (.unrecognizedOpcode 0x90) := by decide
theorem test_decode_refuses_82 : refusedBy [0x82, 0xC0, 0x01] = some (.unrecognizedOpcode 0x82) := by decide
theorem test_decode_refuses_80_or : refusedBy [0x80, 0xC8, 0x01] = some (.unrecognizedOperation 0x80 0xC8) := by decide
theorem test_decode_runs_out : refusedBy [0xB8] = some (.outOfBounds 1) := by decide

/-! ## The opcode table's numbering (log entry 5) -/

theorem test_table_word_of_b0 : decodeTableWord 8 0x74 = some (.je 0) := by decide
theorem test_table_word_of_b0b1 : decodeTableWord 16 0x8328 = some (.subRmImm83 (.mem (.ea .bxSi .none)) 0) := by decide
theorem test_table_word_runs_first :
    afterStep (State.reset.withFetchWord 16 0x8000) (fun t => (t.status, t.ip, t.n)) = some (.running, 3, 1) := by decide

/-! ## Instructions: one execution each, from 95_test_vectors.md sections 2.3 to 2.5 -/

-- M6: mov al, ah with ax = 0x1234
theorem test_movRmReg_byte_half :
    afterExec (.movRmReg .toRm .byte 4 (.reg 0)) (stateWith [(0, 0x1234)] []) (·.x 0) = some 0x1212 := by decide
-- M22: mov al, [bx + si], the address wraps to 5
theorem test_movRmReg_address_wraps :
    afterExec (.movRmReg .toReg .byte 0 (.mem (.ea .bxSi .none))) (stateWith [(3, 0xFFFF), (6, 6)] [(5, 0x99)]) (·.x 0)
      = some 0x0099 := by decide
-- M3: mov ah, 171
theorem test_movRegImm_high_half :
    afterExec (.movRegImm 4 (.imm8 0xAB)) (stateWith [(0, 0x1234)] []) (·.x 0) = some 0xAB34 := by decide
-- M17: mov [bx + 4], word 4660
theorem test_movRmImm_little_endian :
    afterExec (.movRmImm (.mem (.ea .bx (.d8 4))) (.imm16 0x1234)) (stateWith [(3, 0x03E8)] []) (·.mem)
      = some [(0x03EC, 0x34), (0x03ED, 0x12)] := by decide
-- M19: mov al, [17] keeps ah
theorem test_movAccMem_keeps_ah :
    afterExec (.movAccMem .byte 17) (stateWith [(0, 0xAAAA)] [(17, 0xBE)]) (·.x 0) = some 0xAABE := by decide
-- M20: mov [65534], ax
theorem test_movMemAcc_top :
    afterExec (.movMemAcc .word 0xFFFE) (stateWith [(0, 0xBEEF)] []) (·.mem)
      = some [(0xFFFE, 0xEF), (0xFFFF, 0xBE)] := by decide
-- A2: add ax, bx wraps to 0
theorem test_addRmReg_wraps :
    afterExec (.addRmReg .toRm .word 3 (.reg 0)) (stateWith [(0, 0xFFFF), (3, 1)] []) (fun t => (t.x 0, t.zf, t.sf))
      = some (0, true, false) := by decide
-- A16: add ah, ah
theorem test_addRmReg_same_byte :
    afterExec (.addRmReg .toRm .byte 4 (.reg 4)) (stateWith [(0, 0x1234)] []) (·.x 0) = some 0x2434 := by decide
-- A11: sub al, bl, 0 - 1
theorem test_subRmReg_byte_wraps :
    afterExec (.subRmReg .toRm .byte 3 (.reg 0)) (stateWith [(0, 0x5500), (3, 1)] []) (fun t => (t.x 0, t.zf, t.sf))
      = some (0x55FF, false, true) := by decide
-- A9: cmp ax, bx with 3 and 5
theorem test_cmpRmReg_below :
    afterExec (.cmpRmReg .toRm .word 3 (.reg 0)) (stateWith [(0, 3), (3, 5)] []) (fun t => (t.x 0, t.zf, t.sf))
      = some (3, false, true) := by decide
-- A29: add [bx], byte 249 to 7
theorem test_addRmImm80_memory :
    afterExec (.addRmImm80 (.mem (.ea .bx .none)) 249) (stateWith [(3, 0x100)] [(0x100, 7)]) (fun t => (t.mem, t.zf, t.sf))
      = some ([], true, false) := by decide
-- A24: add bx, 4660
theorem test_addRmImm81 :
    afterExec (.addRmImm81 (.reg 3) 4660) (stateWith [(3, 5)] []) (·.x 3) = some 0x1239 := by decide
-- A30: add [bx], word 65535 (the byte FF sign-extended)
theorem test_addRmImm83_memory_word :
    afterExec (.addRmImm83 (.mem (.ea .bx .none)) 0xFF) (stateWith [(3, 0x100)] [(0x100, 7)]) (·.mem)
      = some [(0x100, 6)] := by decide
-- sub [bx], byte 1 from 0 wraps to FF in one byte (R151, R157)
theorem test_subRmImm80_one_byte :
    afterExec (.subRmImm80 (.mem (.ea .bx .none)) 1) (stateWith [(3, 0x100)] []) (fun t => (t.mem, t.sf))
      = some ([(0x100, 0xFF)], true) := by decide
-- A31: sub [256], word 1 from 0
theorem test_subRmImm81_memory_wraps :
    afterExec (.subRmImm81 (.mem (.direct 256)) 1) (stateWith [] []) (fun t => (t.mem, t.zf, t.sf))
      = some ([(0x100, 0xFF), (0x101, 0xFF)], false, true) := by decide
-- A23: sub bx, 65408 (the byte 80 sign-extended)
theorem test_subRmImm83_sign_extends :
    afterExec (.subRmImm83 (.reg 3) 0x80) (stateWith [(3, 5)] []) (·.x 3) = some 0x0085 := by decide
-- A28: cmp [bx], byte 7
theorem test_cmpRmImm80_keeps_memory :
    afterExec (.cmpRmImm80 (.mem (.ea .bx .none)) 7) (stateWith [(3, 0x100)] [(0x100, 7)]) (fun t => (t.mem, t.zf, t.sf))
      = some ([(0x100, 7)], true, false) := by decide
-- cmp [bx + 256], word 4660 with that word there (R158)
theorem test_cmpRmImm81_equal :
    afterExec (.cmpRmImm81 (.mem (.ea .bx (.d16 256))) 4660) (stateWith [] [(0x100, 0x34), (0x101, 0x12)])
      (fun t => (t.zf, t.sf)) = some (true, false) := by decide
-- A26: cmp bx, 5
theorem test_cmpRmImm83_equal :
    afterExec (.cmpRmImm83 (.reg 3) 5) (stateWith [(3, 5)] []) (fun t => (t.x 3, t.zf, t.sf)) = some (5, true, false) := by decide
-- A32: add ax, 32769 to 0x7FFF
theorem test_addAccImm_wraps :
    afterExec (.addAccImm (.imm16 32769)) (stateWith [(0, 0x7FFF)] []) (fun t => (t.x 0, t.zf, t.sf))
      = some (0, true, false) := by decide
-- A37: sub al, 127 keeps ah
theorem test_subAccImm_byte :
    afterExec (.subAccImm (.imm8 127)) (stateWith [(0, 0x5500)] []) (fun t => (t.x 0, t.zf, t.sf))
      = some (0x5581, false, true) := by decide
-- R161: al = 0xFF, cmp al, 255
theorem test_cmpAccImm_equal :
    afterExec (.cmpAccImm (.imm8 255)) (stateWith [(0, 0xFF)] []) (fun t => (t.x 0, t.zf, t.sf))
      = some (0xFF, true, false) := by decide
-- R181: zf = 1 at ip = 4: next instruction 6, plus 2
theorem test_je_taken : afterExec (.je 2) { stateWith [] [] with ip := 6, zf := true } (·.ip) = some 8 := by decide
theorem test_je_not_taken : afterExec (.je 2) { stateWith [] [] with ip := 6 } (·.ip) = some 6 := by decide
-- R182: 75 F8 at 12 targets 6
theorem test_jne_taken : afterExec (.jne 0xF8) { stateWith [] [] with ip := 14 } (·.ip) = some 6 := by decide
theorem test_jne_not_taken : afterExec (.jne 0xF8) { stateWith [] [] with ip := 14, zf := true } (·.ip) = some 14 := by decide

/-! ## The step, from section 2.6 -/

-- M1: mov bl, 100
theorem test_step_m1 :
    afterStep (loaded [0xB3, 0x64] []) (fun t => (t.x 3, t.ip, t.n, t.status)) = some (100, 2, 1, .running) := by decide
-- F1: 90
theorem test_step_f1 :
    afterStep (loaded [0x90] []) (fun t => (t.status, t.fault, t.ip))
      = some (.faulted, some ⟨.unrecognizedOpcode, 1, .opcode 0x90, 0, 0⟩, 0) := by decide
-- F6: mov [65535], ax
theorem test_step_f6 :
    afterStep (loaded [0xA3, 0xFF, 0xFF] []) (fun t => (t.status, t.fault, t.ip, t.n))
      = some (.faulted, some ⟨.outOfBounds, 2, .address 0x10000, 3, 0⟩, 3, 0) := by decide
-- F9: B8 alone: the immediate is fetched from memory beyond L
theorem test_step_f9 : afterStep (loaded [0xB8] [(0, 7)]) (fun t => (t.x 0, t.ip, t.status)) = some (0, 3, .running) := by decide
-- F10: the empty image
theorem test_step_f10 : afterStep (loaded [] []) (·.status) = some .halted := by decide
-- B7: jne -128 at 0
theorem test_step_b7 :
    afterStep (loaded [0x75, 0x80] []) (fun t => (t.status, t.fault, t.ip))
      = some (.faulted, some ⟨.outOfBounds, 2, .address (-126), 2, 0⟩, 2) := by decide
-- R197: 90 at 0xFFFF is unrecognized; B8 there runs out of memory
theorem test_step_top_of_memory :
    afterStep { stateWith [] [(0xFFFF, 0x90)] with ip := 0xFFFF, progLen := 65536 } (fun t => t.fault.map (·.kind))
      = some (some .unrecognizedOpcode) ∧
    afterStep { stateWith [] [(0xFFFF, 0xB8)] with ip := 0xFFFF, progLen := 65536 } (fun t => t.fault.map (·.info))
      = some (some (.address 0x10000)) := by decide

/-! ## The listing, from sections 2.1 and 2.2 -/

theorem test_render_mov : render (.movRmReg .toReg .word 0 (.mem (.ea .bp (.d8 0)))) = "mov ax, [bp + 0]" := by decide
theorem test_render_imm : render (.movRmImm (.mem (.ea .bx (.d16 256))) (.imm16 0xFFFF)) = "mov [bx + 256], word 65535" := by decide
theorem test_render_sext : render (.addRmImm83 (.reg 3) 0xFF) = "add bx, 65535" := by decide
theorem test_render_jump : render (.jne 0x80) = "jne -128" := by decide
-- D3
theorem test_listing_d3 :
    disassemble [0xB0, 0x05, 0xB8, 0x01] = ⟨[⟨0, "mov al, 5"⟩], some (outOfBoundsAt 4, 2)⟩ := by decide
-- R88: commit moves the position and says whether bytes remain
theorem test_cursor_commit : (Cursor.commit [1, 2, 3] ⟨0, 2⟩, Cursor.commit [1, 2, 3] ⟨1, 2⟩) = ((⟨2, 0⟩, true), (⟨3, 0⟩, false)) := by
  decide

/-! ## Witnesses: the hypotheses of each statement can be met, clause by clause, at the boundaries -/

/-- A running state of a two-byte program, `01 D8`. -/
def sample : State := loaded [0x01, 0xD8] [(0, 1), (3, 2)]

theorem witness_loadPlacesImage : ([1, 2] : List Byte).length ≤ 65536 ∧ 65536 < (List.replicate 65537 (0 : Byte)).length := by
  refine ⟨by decide, ?_⟩
  rw [List.length_replicate]; decide
theorem witness_loadedState : ∃ s, State.load [0x01, 0xD8] = some s := ⟨_, rfl⟩
theorem witness_stepKeepsInvariant : sample.Inv ∧ ∃ t, step sample = .next t := by
  refine ⟨⟨rfl, by decide, by decide, ?_, by decide, by decide⟩, _, rfl⟩
  intro r h; cases h
theorem witness_stepRunsDecoded : sample.status = .running ∧ sample.ip.toNat < sample.progLen ∧
    decoded sample.fetchBytes = some (.addRmReg .toRm .word 3 (.reg 0), 2) ∧ sample.ip.toNat + 2 ≤ 0xFFFF := by decide
/-- The last instruction that still advances: two bytes at `0xFFFD`. -/
theorem witness_stepRunsDecoded_boundary :
    let s : State := { stateWith [] [(0xFFFD, 0xB0)] with ip := 0xFFFD, progLen := 65536 }
    s.status = .running ∧ s.ip.toNat < s.progLen ∧ decoded s.fetchBytes = some (.movRegImm 0 (.imm8 0), 2) ∧
      s.ip.toNat + 2 = 0xFFFF := by decide
theorem witness_stepHalts : (loaded [0x90] []).status = .running ∧
    ({ loaded [0x90] [] with ip := 1 } : State).progLen ≤ ({ loaded [0x90] [] with ip := 1 } : State).ip.toNat := by decide
theorem witness_stopped : ({ sample with status := .halted } : State).status = .halted ∧
    ({ sample with status := .faulted } : State).status = .faulted := by decide
theorem witness_stepAnswers : ∃ t, step sample = .next t ∧ t.status = .running := ⟨_, rfl, rfl⟩
theorem witness_stepAnswers_halted : ∃ t, step (loaded [] []) = .next t ∧ t.status = .halted := ⟨_, rfl, rfl⟩
theorem witness_stepAnswers_faulted_in_decode : ∃ t, step (loaded [0x90] []) = .next t ∧ t.status = .faulted := ⟨_, rfl, rfl⟩
theorem witness_stepAnswers_faulted_in_execution :
    ∃ t, step (loaded [0xA3, 0xFF, 0xFF] []) = .next t ∧ t.status = .faulted := ⟨_, rfl, rfl⟩
theorem witness_stepAnswers_jump : afterStep (loaded [0x75, 0x05] []) (·.ip) = some 7 := by decide
theorem witness_execFaults : sample.status = .running ∧
    afterExec (.movAccMem .word 0xFFFF) sample (·.status) = some .faulted := by decide
theorem witness_unrecognizedOpcode : (loaded [0x82] []).status = .running ∧ (loaded [0x82] []).ip.toNat < (loaded [0x82] []).progLen ∧
    acceptedOpcode ((loaded [0x82] []).mem.read 0) = false := by decide
theorem witness_unsupportedOperation :
    let s : State := { stateWith [] [(0xFFFE, 0x83), (0xFFFF, 0x08)] with ip := 0xFFFE, progLen := 65536 }
    s.status = .running ∧ s.ip.toNat < s.progLen ∧ s.ip.toNat + 1 ≤ 0xFFFF ∧ s.mem.read s.ip.toNat = 0x83 ∧
      supportedOperation (s.mem.read (s.ip.toNat + 1)) = false := by decide
theorem witness_fetchPastMemory :
    let s : State := { stateWith [] [(0xFFFF, 0xB8)] with ip := 0xFFFF, progLen := 65536 }
    s.status = .running ∧ s.ip.toNat < s.progLen ∧ refusedBy s.fetchBytes = some (.outOfBounds 1) ∧
      acceptedOpcode (s.mem.read 0xFFFF) = true := by decide
theorem witness_advancePastMemory :
    let s : State := { stateWith [] [(0xFFFE, 0xB0)] with ip := 0xFFFE, progLen := 65536 }
    s.status = .running ∧ s.ip.toNat < s.progLen ∧ decoded s.fetchBytes = some (.movRegImm 0 (.imm8 0), 2) ∧
      0xFFFF < s.ip.toNat + 2 := by decide
theorem witness_wordAccessAtTop : (stateWith [(3, 0xFFF0)] []).ea (.ea .bx (.d8 0x0F)) = 0xFFFF ∧
    (stateWith [] []).ea (.direct 0xFFFF) = 0xFFFF := by decide
theorem witness_decodeOfEncode : (Instr.subRmImm83 (.mem (.ea .bpSi (.d8 0xFE))) 1).wf = true := by decide
theorem witness_encodeOfDecode : decoded [0xC7, 0x3E, 0x10, 0x00, 0x01, 0x00] = some (.movRmImm (.mem (.direct 16)) (.imm16 1), 6) := by
  decide
theorem witness_decodeOutOfBounds : refusedBy [0xC7, 0x06, 0x10, 0x00, 0x01] = some (.outOfBounds 5) := by decide
theorem witness_ignoredField : (0xC3 : Byte) &&& 0xC7 = 0xF3 &&& 0xC7 := by decide
theorem witness_disassembly : (∀ i ∈ [Instr.je 2, Instr.movRegImm 0 (.imm8 5)], i.wf = true) ∧ ([0xB8] : List Byte) ≠ [] ∧
    refusedBy [0xB8] = some (.outOfBounds 1) := by decide
/-- The condition of R44: the last word inside memory, and a byte at the very top. -/
theorem witness_inside : Inside (stateWith [] []) .word (.mem (.direct 0xFFFE)) ∧
    Inside (stateWith [] []) .byte (.mem (.direct 0xFFFF)) ∧ Inside (stateWith [] []) .word (.reg 7) :=
  ⟨fun _ => by decide, fun h => (by cases h), trivial⟩
theorem witness_flagsOfResult : (0xFF : Word).toNat < 2 ^ Width.byte.bits ∧ (0xFFFF : Word).toNat < 2 ^ Width.word.bits := by decide
/-- JE and JNE taken at both ends of the range, and just outside each: targets 0, 0xFFFF, -1 and 0x10000. -/
theorem witness_jumpTargets :
    ((128 : Word).toNat : Int) + (0x80 : Byte).toInt = 0 ∧ ((0xFF80 : Word).toNat : Int) + (0x7F : Byte).toInt = 0xFFFF ∧
    ((127 : Word).toNat : Int) + (0x80 : Byte).toInt < 0 ∧ 0xFFFF < ((0xFF81 : Word).toNat : Int) + (0x7F : Byte).toInt := by decide
theorem witness_je : ({ sample with zf := true } : State).zf = true ∧ sample.zf = false := by decide
theorem witness_jne : sample.zf = false ∧ ({ sample with zf := true } : State).zf = true := by decide
theorem witness_execAnswers : ∃ t, exec (.addRmReg .toRm .word 3 (.reg 0)) sample = .next t := ⟨_, rfl⟩
theorem witness_flagsFrame : writesFlags (.je 0) = false ∧ writesFlags (.movAccMem .byte 0) = false := by decide
theorem witness_ipFrame : ∀ d8, Instr.movAccMem .byte 0 ≠ .je d8 ∧ Instr.movAccMem .byte 0 ≠ .jne d8 :=
  fun _ => ⟨by simp, by simp⟩
/-- Byte registers of both kinds: `bl` (3) and `bh` (7) live in `bx` (3). -/
theorem witness_byteRegisters : (3 : RegCode).val < 4 ∧ 4 ≤ (7 : RegCode).val ∧ (3 : RegCode).val = (7 : RegCode).val % 4 ∧
    (4 : RegCode).val ≠ (7 : RegCode).val % 4 := by decide
theorem witness_wordInside : (0xFFFE : Word).toNat + 1 ≤ 0xFFFF ∧ ¬ (0xFFFF : Word).toNat + 1 ≤ 0xFFFF := by decide
theorem witness_storeThenFetch : ((5 : Nat) < 6) ∧ (5 : Word).toNat = sample.ip.toNat + 5 := by decide
theorem witness_storeThenLoad : (0xFFFE : Word) ≠ 0xFFFF := by decide

end Sys2Proof.Tests
end

section
/-! SUPPORT. Byte registers as halves of the word register that holds them (R22, R23): what a byte write leaves in every
register. -/

namespace Sys2Proof.Machine

theorem eq_byteHome_iff (c i : RegCode) : c = byteHome i ↔ c.val = i.val % 4 := Fin.ext_iff

/-- Two different byte registers in one word register are its two halves. -/
theorem lt_four_iff_of_byteHome_eq {i j : RegCode} (hne : j ≠ i) (h : byteHome j = byteHome i) :
    j.val < 4 ↔ ¬ i.val < 4 := by
  have hmod : j.val % 4 = i.val % 4 := Fin.ext_iff.1 h
  have hval : j.val ≠ i.val := fun e => hne (Fin.ext e)
  omega

theorem State.xb_of_lt (s : State) {i : RegCode} (h : i.val < 4) : s.xb i = lowByte (s.x (byteHome i)) := if_pos h

theorem State.xb_of_not_lt (s : State) {i : RegCode} (h : ¬ i.val < 4) : s.xb i = highByte (s.x (byteHome i)) := if_neg h

theorem State.x_setXb_byteHome_of_lt (s : State) {i : RegCode} (h : i.val < 4) (v : Byte) :
    (s.setXb i v).x (byteHome i) = joinBytes v (highByte (s.x (byteHome i))) := by
  rw [State.setXb, if_pos h, State.x_setX_self]

theorem State.x_setXb_byteHome_of_not_lt (s : State) {i : RegCode} (h : ¬ i.val < 4) (v : Byte) :
    (s.setXb i v).x (byteHome i) = joinBytes (lowByte (s.x (byteHome i))) v := by
  rw [State.setXb, if_neg h, State.x_setX_self]

theorem State.x_setXb_of_ne (s : State) {c i : RegCode} (h : c ≠ byteHome i) (v : Byte) :
    (s.setXb i v).x c = s.x c := by
  obtain ⟨u, hu⟩ := s.setXb_eq_setX i v
  rw [hu, State.x_setX_of_ne s h]

@[simp] theorem State.xb_setXb_self (s : State) (i : RegCode) (v : Byte) : (s.setXb i v).xb i = v := by
  by_cases h : i.val < 4
  · rw [State.xb_of_lt _ h, State.x_setXb_byteHome_of_lt s h, lowByte_joinBytes]
  · rw [State.xb_of_not_lt _ h, State.x_setXb_byteHome_of_not_lt s h, highByte_joinBytes]

/-- Another byte register lies in another word register, or is the half that the write keeps. -/
theorem State.xb_setXb_of_ne (s : State) {i j : RegCode} (hne : j ≠ i) (v : Byte) : (s.setXb i v).xb j = s.xb j := by
  by_cases hhome : byteHome j = byteHome i
  · have hhalf := lt_four_iff_of_byteHome_eq hne hhome
    by_cases hi : i.val < 4
    · have hj : ¬ j.val < 4 := fun hj => hhalf.1 hj hi
      rw [State.xb_of_not_lt _ hj, State.xb_of_not_lt _ hj, hhome, State.x_setXb_byteHome_of_lt s hi, highByte_joinBytes]
    · have hj : j.val < 4 := hhalf.2 hi
      rw [State.xb_of_lt _ hj, State.xb_of_lt _ hj, hhome, State.x_setXb_byteHome_of_not_lt s hi, lowByte_joinBytes]
  · simp only [State.xb, State.x_setXb_of_ne s hhome]

end Sys2Proof.Machine
end

section
/-! SUPPORT. What a step does to `L` and to `status` (R30, R110): the two fields a fault or the end of a run decides. -/

namespace Sys2Proof.Machine

@[simp] theorem State.raiseDecode_progLen (s : State) (e : DecodeError) : (s.raiseDecode e).progLen = s.progLen := rfl
@[simp] theorem State.raiseDecode_status (s : State) (e : DecodeError) : (s.raiseDecode e).status = .faulted := rfl
@[simp] theorem State.raiseAdvance_progLen (s : State) (len : Nat) : (s.raiseAdvance len).progLen = s.progLen := rfl
@[simp] theorem State.raiseAdvance_status (s : State) (len : Nat) : (s.raiseAdvance len).status = .faulted := rfl

theorem progLen_of_load {image : List Byte} {s : State} (h : State.load image = some s) : s.progLen = image.length := by
  unfold State.load at h
  split at h
  · cases h; rfl
  · cases h

theorem retire_eq_next_iff {r : Result} {t : State} : retire r = .next t ↔ ∃ u, r = .next u ∧ t = u.complete := by
  cases r <;> simp [retire, eq_comm]

/-- Executing an instruction keeps `L`, and keeps `status` unless it faults. -/
theorem exec_keeps_progLen_status {i : Instr} {s t : State} (h : exec i s = .next t) :
    t.progLen = s.progLen ∧ (t.status = s.status ∨ t.status = .faulted) := by
  rcases exec_cases i s with ⟨c, _, hraise⟩ | ⟨u, hnext, hframe, _⟩
  · obtain rfl : s.raise c = t := Host.Outcome.next.inj (hraise.symm.trans h)
    exact ⟨rfl, .inr rfl⟩
  · obtain rfl : u = t := Host.Outcome.next.inj (hnext.symm.trans h)
    rw [hframe]
    exact ⟨rfl, .inl rfl⟩

/-- A step keeps `L`, and it ends the run exactly when it found `ip` at or beyond `L`. -/
theorem step_keeps_progLen_halted_iff {s t : State} (h : step s = .next t) :
    t.progLen = s.progLen ∧ (t.status = .halted ↔ s.progLen ≤ s.ip.toNat) := by
  rcases step_cases s with ⟨_, hs⟩ | ⟨_, hs⟩ | ⟨_, hend, hs⟩ | ⟨_, hip, e, _, hs⟩ | ⟨_, hip, i, len, _, _, hs⟩ |
    ⟨hrun, hip, i, len, _, _, hs⟩ <;> rw [hs] at h
  · cases h
  · cases h
  · cases h
    exact ⟨rfl, iff_of_true rfl hend⟩
  · cases h
    exact ⟨rfl, iff_of_false (by simp) (by omega)⟩
  · cases h
    exact ⟨rfl, iff_of_false (by simp) (by omega)⟩
  · obtain ⟨u, hexec, rfl⟩ := retire_eq_next_iff.1 h
    obtain ⟨hlen, hstatus⟩ := exec_keeps_progLen_status hexec
    have hnot : u.status ≠ .halted := by
      rcases hstatus with hkept | hfault
      · simp [hkept, hrun]
      · simp [hfault]
    exact ⟨by simp [hlen], iff_of_false (by simpa using hnot) (by omega)⟩

end Sys2Proof.Machine
end

section
/-! The obligations of the state (10_state.md). -/

namespace Sys2Proof.Machine

/-- Settles O11: the two clauses are `progLen_of_load` and `step_keeps_progLen_halted_iff`. -/
theorem programLengthNeverChanges : Obligations.ProgramLengthNeverChanges :=
  ⟨fun _ _ => progLen_of_load, fun _ _ => step_keeps_progLen_halted_iff⟩

/-- Settles O41: each clause is a read after a write, the word register that holds `i` being `byteHome i`. -/
theorem byteRegisterWriteKeepsOtherHalf : Obligations.ByteRegisterWriteKeepsOtherHalf := by
  intro s i j v c u
  simp only [← eq_byteHome_iff, ne_eq]
  refine ⟨s.xb_setXb_self i v, fun hj => s.xb_setXb_of_ne hj v, fun hc => s.x_setXb_of_ne hc v, ?_, ?_, ?_,
    s.x_setX_self c u⟩
  · rintro rfl hi
    exact s.x_setXb_byteHome_of_lt hi v
  · rintro rfl hi
    exact s.x_setXb_byteHome_of_not_lt (Nat.not_lt.2 hi) v
  · rintro rfl
    rfl

end Sys2Proof.Machine
end

section
/-! The obligations of memory (20_memory.md). -/

namespace Sys2Proof.Machine

/-- A byte access fits at every address (R44). -/
theorem fitsAt_byte (a : Word) : FitsAt .byte a := nofun

/-- A word access whose second byte lies inside memory fits (R44). -/
theorem fitsAt_word {a : Word} (h : a.toNat + 1 ≤ 0xFFFF) : FitsAt .word a := fun _ => (toNat_add_one_le_iff a).1 h

/-- Settles O42: `memRead_ok` gives the value of a fitting read, `memWrite_ok` the memory after a fitting write, and the
byte order is the arithmetic of `joinBytes`, `lowByte` and `highByte`. -/
theorem memoryAccessesAreLittleEndian : Obligations.MemoryAccessesAreLittleEndian := by
  intro m a v
  refine ⟨?readByte, fun hin => ?readWord, ?writeByte, fun hin => ?writeWord⟩
  case readByte => exact ⟨_, memRead_ok m (fitsAt_byte a), toNat_zext16 _⟩
  case readWord => exact ⟨_, memRead_ok m (fitsAt_word hin), toNat_joinBytes _ _⟩
  case writeByte =>
    obtain ⟨m', hw, hread⟩ := memWrite_ok m (fitsAt_byte a) v
    refine ⟨m', hw, ?_, fun b hb => ?_⟩
    · rw [hread, if_pos rfl, toNat_lowByte]
    · simp [hread, hb]
  case writeWord =>
    obtain ⟨m', hw, hread⟩ := memWrite_ok m (fitsAt_word hin) v
    refine ⟨m', hw, ?_, ?_, fun b hlow hhigh => ?_⟩
    · rw [hread, if_pos rfl, toNat_lowByte]
    · simp [hread, toNat_highByte]
    · simp [hread, hlow, hhigh]

end Sys2Proof.Machine
end

section
/-! SUPPORT. The sign bit of an operand value on unsigned integers (R9): bit `W-1` of a `W`-bit value is 1 exactly in the upper
half of the range. -/

namespace Sys2Proof

/-- `msb_W(v)` reads bit `W-1`, at both widths. -/
theorem Width.msb_eq_testBit (w : Width) (v : Word) : w.msb v = v.toNat.testBit (w.bits - 1) := by
  cases w <;> rfl

/-- Bit `W-1` of a `W`-bit value is 1 exactly when the value is at least `2^(W-1)`. -/
theorem Width.msb_iff {w : Width} {v : Word} (h : v.toNat < 2 ^ w.bits) : w.msb v = true ↔ 2 ^ (w.bits - 1) ≤ v.toNat := by
  have hbits : w.bits - 1 + 1 = w.bits := by cases w <;> rfl
  rw [Width.msb_eq_testBit]
  constructor
  · exact Nat.ge_two_pow_of_testBit
  · intro hle
    exact Nat.testBit_of_two_pow_le_and_two_pow_add_one_gt hle (hbits.symm ▸ h)

end Sys2Proof
end

section
/-! The obligations of the execution cycle (40_execution_cycle.md). -/

namespace Sys2Proof.Machine

/-- Settles O34: `zf` by what `SetZS` writes there, `sf` by `Width.msb_iff`, the frame by the record update `SetZS` is. -/
theorem flagsOfResult : Obligations.FlagsOfResult := by
  intro s w r hr
  refine ⟨?zero, ?sign, rfl⟩
  case zero =>
    rw [State.setZS_zf, decide_eq_true_iff]
    exact BitVec.toNat_eq
  case sign => rw [State.setZS_sf, Width.msb_iff hr]

end Sys2Proof.Machine
end

section
/-! SUPPORT. Operand access on unsigned integers: what `ReadOp` and `WriteOp` do at an r/m operand inside memory, in the terms of
the statements (R113, R114). -/

namespace Sys2Proof.Machine

open Sys2Proof.Claims

/-- Memory never reaches an effective address (R112). -/
@[simp] theorem State.ea_withMem (s : State) (mem : Memory) (m : MemOp) :
    ({ s with mem := mem } : State).ea m = s.ea m := by
  cases m with
  | direct a => rfl
  | ea mode d => cases mode <;> rfl

theorem operandNat_reg (s : State) (w : Width) (i : RegCode) : operandNat s w (.reg i) = (s.readReg w i).toNat := by
  cases w with
  | byte => exact (toNat_zext16 _).symm
  | word => rfl

/-- Reading an operand inside memory answers its value. -/
theorem State.readOp_loc {s : State} {w : Width} {d : RmOp} (h : Inside s w d) :
    ∃ v, s.readOp w d.loc = .ok v ∧ v.toNat = operandNat s w d := by
  cases d with
  | reg i => exact ⟨_, rfl, (operandNat_reg s w i).symm⟩
  | mem m =>
    refine ⟨_, memRead_ok s.mem h, ?_⟩
    cases w with
    | byte => exact toNat_zext16 _
    | word => exact toNat_joinBytes _ _

/-- An operand's value has at most `W` bits. -/
theorem operandNat_lt (s : State) (w : Width) (d : RmOp) : operandNat s w d < 2 ^ w.bits := by
  cases w with
  | byte => cases d <;> exact BitVec.isLt _
  | word =>
    cases d with
    | reg i => exact BitVec.isLt _
    | mem m =>
      have hlow := (s.mem.read (s.ea m).toNat).isLt
      have hhigh := (s.mem.read ((s.ea m).toNat + 1)).isLt
      simp only [operandNat, Width.bits]
      omega

/-- A register written at width `w` holds the `W`-bit value written. -/
theorem operandNat_writeReg_self (s : State) {w : Width} (i : RegCode) {v : Word} (hv : v.toNat < 2 ^ w.bits) :
    operandNat (s.writeReg w i v) w (.reg i) = v.toNat := by
  cases w with
  | byte =>
    have hmod : v.toNat % 256 = v.toNat := Nat.mod_eq_of_lt hv
    simp [operandNat, State.writeReg, toNat_lowByte, hmod]
  | word => simp [operandNat, State.writeReg]

/-- A register write keeps memory, the other registers, and the other half of a byte register's home (R23). -/
theorem sameOutside_writeReg (s : State) (w : Width) (i : RegCode) (v : Word) :
    SameOutside w (.reg i) s (s.writeReg w i v) := by
  refine ⟨fun a => by rw [State.writeReg_mem], ?_⟩
  cases w with
  | byte =>
    exact ⟨fun c hc => s.x_setXb_of_ne (mt (eq_byteHome_iff c i).1 hc) _, fun b hb => s.xb_setXb_of_ne hb _⟩
  | word => exact fun c hc => s.x_setX_of_ne hc v

/-- A store inside memory leaves the `W`-bit value at its effective address, and every other byte (R43). -/
theorem memWrite_operand {s : State} {w : Width} {m : MemOp} (h : Inside s w (.mem m)) {v : Word}
    (hv : v.toNat < 2 ^ w.bits) :
    ∃ mem, memWrite s.mem w (s.ea m) v = .ok mem ∧ operandNat { s with mem := mem } w (.mem m) = v.toNat ∧
      SameOutside w (.mem m) s { s with mem := mem } := by
  obtain ⟨mem, hwrite, hread⟩ := memWrite_ok s.mem h v
  refine ⟨mem, hwrite, ?value, fun _ => rfl, fun a hlow hhigh => ?frame⟩
  case value =>
    cases w with
    | byte =>
      have hmod : v.toNat % 256 = v.toNat := Nat.mod_eq_of_lt hv
      simp [operandNat, hread, toNat_lowByte, hmod]
    | word =>
      simp only [operandNat, State.ea_withMem, hread, if_true, Nat.succ_ne_self, if_false, and_self, toNat_lowByte,
        toNat_highByte]
      exact Nat.mod_add_div _ _
  case frame =>
    have hnot : ¬ (w = .word ∧ a = (s.ea m).toNat + 1) := fun ⟨hw, ha⟩ => hhigh hw ha
    rw [hread, if_neg hlow, if_neg hnot]

/-- Writing a `W`-bit value to an operand inside memory completes; the operand then holds the value, and nothing outside it
changes. -/
theorem State.writeOp_loc {s : State} {w : Width} {d : RmOp} (h : Inside s w d) {v : Word} (hv : v.toNat < 2 ^ w.bits) :
    ∃ t, s.writeOp w d.loc v = .ok t ∧ operandNat t w d = v.toNat ∧ SameOutside w d s t := by
  cases d with
  | reg i => exact ⟨_, rfl, operandNat_writeReg_self s i hv, sameOutside_writeReg s w i v⟩
  | mem m =>
    obtain ⟨mem, hwrite, hvalue, hframe⟩ := memWrite_operand h hv
    exact ⟨{ s with mem := mem }, by simp [RmOp.loc, State.writeOp, hwrite], hvalue, hframe⟩

/-- An immediate's value as an operand value is its unsigned integer (R69). -/
@[simp] theorem toNat_imm_value (imm : Imm) : imm.value.toNat = immNat imm := by
  cases imm with
  | imm8 v => exact toNat_zext16 v
  | imm16 v => rfl

/-- An immediate's value has at most as many bits as its own width (R69). -/
theorem immNat_lt (imm : Imm) : immNat imm < 2 ^ imm.width.bits := by
  cases imm <;> exact BitVec.isLt _

end Sys2Proof.Machine
end

section
/-! The obligations of data movement (41_data_move.md). -/

namespace Sys2Proof.Machine

open Sys2Proof.Claims

/-- MOV of any source that answers a `W`-bit value, to an operand inside memory (R130). -/
theorem movEffect_mov {s : State} {w : Width} {d : RmOp} {src : Loc} {v : Word} (hd : Inside s w d)
    (hsrc : s.readOp w src = .ok v) (hv : v.toNat < 2 ^ w.bits) : MovEffect w d v.toNat s (mov w d.loc src s) := by
  obtain ⟨t, hwrite, hvalue, hframe⟩ := State.writeOp_loc hd hv
  have hmov : mov w d.loc src s = .next t := by simp [mov, hsrc, hwrite]
  obtain ⟨ht, -⟩ := State.writeOp_frame hwrite
  refine ⟨t, hmov, hvalue, ?_, ?_, ?_, hframe⟩ <;> rw [ht]
  exact ⟨rfl, rfl, rfl, rfl, rfl, rfl⟩

/-- MOV between operands inside memory (R131, R134, R135). -/
theorem movEffect_mov_operand {s : State} {w : Width} {d src : RmOp} (hd : Inside s w d) (hsrc : Inside s w src) :
    MovEffect w d (operandNat s w src) s (mov w d.loc src.loc s) := by
  obtain ⟨v, hread, hv⟩ := State.readOp_loc hsrc
  rw [← hv]
  exact movEffect_mov hd hread (hv ▸ operandNat_lt s w src)

/-- MOV of an immediate to an operand inside memory (R132, R133). -/
theorem movEffect_mov_imm {s : State} {imm : Imm} {d : RmOp} (hd : Inside s imm.width d) :
    MovEffect imm.width d (immNat imm) s (mov imm.width d.loc (.imm imm.value) s) := by
  rw [← toNat_imm_value]
  exact movEffect_mov hd rfl ((toNat_imm_value imm).symm ▸ immNat_lt imm)

/-- Settles O30: each row is a MOV between operands or of an immediate, and a register operand is inside memory. -/
theorem movCopiesSourceToDestination : Obligations.MovCopiesSourceToDestination := by
  intro s w reg rm imm addr
  have hreg (w : Width) (i : RegCode) : Inside s w (.reg i) := trivial
  refine ⟨fun hrm => ⟨?loadRm, ?storeRm⟩, ?regImm, fun hrm => ?rmImm, fun haddr => ⟨?loadAcc, ?storeAcc⟩⟩
  case loadRm => exact movEffect_mov_operand (hreg w reg) hrm
  case storeRm => exact movEffect_mov_operand hrm (hreg w reg)
  case regImm => exact movEffect_mov_imm (hreg imm.width reg)
  case rmImm => exact movEffect_mov_imm hrm
  case loadAcc => exact movEffect_mov_operand (hreg w 0) haddr
  case storeAcc => exact movEffect_mov_operand haddr (hreg w 0)

end Sys2Proof.Machine
end

section
/-! SUPPORT. The decoder's operations as readers (R82, R88, R89): what a completed one took from its source, and where one
that runs out has stopped. -/

namespace Sys2Proof

variable {α β : Type}

/-- Two decoder operations in a row complete exactly when both do. -/
theorem bind_eq_ok_iff {x : Except DecodeError α} {f : α → Except DecodeError β} {b : β} :
    x >>= f = .ok b ↔ ∃ a, x = .ok a ∧ f a = .ok b := by
  cases x with
  | error e => exact ⟨nofun, nofun⟩
  | ok a => exact ⟨fun h => ⟨a, rfl, h⟩, fun ⟨_, ha, h⟩ => Except.ok.inj ha ▸ h⟩

@[simp] theorem ok_bind (a : α) (f : α → Except DecodeError β) : (Except.ok a >>= f) = f a := rfl

@[simp] theorem error_bind (e : DecodeError) (f : α → Except DecodeError β) : (Except.error e >>= f) = .error e := rfl

/-! ## What a completed operation took -/

/-- Between `r` and `r'` exactly the bytes `bs` were taken from the front. -/
def Took (bs : List Byte) (r r' : Reader) : Prop := r.rest = bs ++ r'.rest ∧ r'.len = r.len + bs.length

theorem Took.trans {bs cs : List Byte} {r r' r'' : Reader} (h : Took bs r r') (h' : Took cs r' r'') :
    Took (bs ++ cs) r r'' := by
  obtain ⟨hrest, hlen⟩ := h
  obtain ⟨hrest', hlen'⟩ := h'
  exact ⟨by rw [hrest, hrest', List.append_assoc], by rw [hlen', hlen, List.length_append, Nat.add_assoc]⟩

theorem next8_took {r r' : Reader} {b : Byte} (h : next8 r = .ok (b, r')) : Took [b] r r' := by
  obtain ⟨rest, len⟩ := r
  cases rest with
  | nil => cases h
  | cons c cs => cases h; exact ⟨rfl, rfl⟩

theorem wordBytes_joinBytes (lo hi : Byte) : wordBytes (joinBytes lo hi) = [lo, hi] := by simp [wordBytes]

theorem next16_took {r r' : Reader} {v : Word} (h : next16 r = .ok (v, r')) : Took (wordBytes v) r r' := by
  obtain ⟨⟨lo, r1⟩, hlo, h⟩ := bind_eq_ok_iff.1 h
  obtain ⟨⟨hi, r2⟩, hhi, h⟩ := bind_eq_ok_iff.1 h
  cases h
  rw [wordBytes_joinBytes]
  exact (next8_took hlo).trans (next8_took hhi)

theorem nextImm_took {w : Width} {r r' : Reader} {imm : Imm} (h : nextImm w r = .ok (imm, r')) :
    imm.width = w ∧ Took imm.bytes r r' := by
  cases w with
  | byte =>
    obtain ⟨⟨v, r1⟩, hv, h⟩ := bind_eq_ok_iff.1 h
    cases h
    exact ⟨rfl, next8_took hv⟩
  | word =>
    obtain ⟨⟨v, r1⟩, hv, h⟩ := bind_eq_ok_iff.1 h
    cases h
    exact ⟨rfl, next16_took hv⟩

/-- Without a displacement only mode 110 has no encoding (R65, R66). -/
theorem wf_ea_none_of_ne {f : BitVec 3} (hf : f ≠ 6) : (RmOp.mem (.ea (EaMode.ofField f) .none)).wf = true := by
  revert f; decide

theorem wf_ea_d8 (mode : EaMode) (v : Byte) : (RmOp.mem (.ea mode (.d8 v))).wf = true := by cases mode <;> rfl

theorem wf_ea_d16 (mode : EaMode) (v : Word) : (RmOp.mem (.ea mode (.d16 v))).wf = true := by cases mode <;> rfl

/-- An r/m operand that was read is well formed, has the fields it was read with, and took its address bytes. -/
theorem nextRm_took {mod : BitVec 2} {f : BitVec 3} {r r' : Reader} {rm : RmOp} (h : nextRm mod f r = .ok (rm, r')) :
    rm.wf = true ∧ rm.modBits = mod ∧ rm.rmBits = f ∧ Took rm.tail r r' := by
  have took_none : Took [] r r := ⟨rfl, rfl⟩
  have fourMods : ∀ m : BitVec 2, m = 0 ∨ m = 1 ∨ m = 2 ∨ m = 3 := by decide
  rcases fourMods mod with rfl | rfl | rfl | rfl
  · by_cases hf : f = 6
    · subst hf
      obtain ⟨⟨a, r1⟩, ha, h⟩ := bind_eq_ok_iff.1 h
      cases h
      exact ⟨rfl, rfl, rfl, next16_took ha⟩
    · obtain rfl | h := (if_neg hf).symm.trans h
      exact ⟨wf_ea_none_of_ne hf, rfl, EaMode.bits_ofField f, took_none⟩
  · obtain ⟨⟨v, r1⟩, hv, h⟩ := bind_eq_ok_iff.1 h
    cases h
    exact ⟨wf_ea_d8 _ v, rfl, EaMode.bits_ofField f, next8_took hv⟩
  · obtain ⟨⟨v, r1⟩, hv, h⟩ := bind_eq_ok_iff.1 h
    cases h
    exact ⟨wf_ea_d16 _ v, rfl, EaMode.bits_ofField f, next16_took hv⟩
  · cases h
    exact ⟨rfl, rfl, rfl, took_none⟩

/-- A ModRM byte is its three fields (R62). -/
theorem fields_compose (b1 : Byte) : (modField b1 ++ regField b1 ++ rmField b1 : BitVec 8) = b1 := by
  revert b1; decide

/-- A ModRM byte and the operand it names, read in a row, took the operand's bytes (R75, R76). -/
theorem modRm_took {r r1 r2 : Reader} {b1 : Byte} {rm : RmOp} (hb : next8 r = .ok (b1, r1))
    (hrm : nextRm (modField b1) (rmField b1) r1 = .ok (rm, r2)) :
    rm.wf = true ∧ Took (rm.bytes (regField b1)) r r2 := by
  obtain ⟨hwf, hmod, hf, htail⟩ := nextRm_took hrm
  have hbytes : rm.bytes (regField b1) = [b1] ++ rm.tail := by rw [RmOp.bytes, hmod, hf, fields_compose]; rfl
  exact ⟨hwf, hbytes ▸ (next8_took hb).trans htail⟩

/-! ## The opcode byte -/

/-- The opcode byte that R74 to R79 write for a family, with the field bits of `b0`. -/
def Family.opcode (f : Family) (b0 : Byte) : Byte :=
  match f with
  | .movRmReg => 0b100010#6 ++ (Dir.ofBit (b0.getLsbD 1)).bit ++ (Width.ofBit (b0.getLsbD 0)).bit
  | .movRegImm => 0b1011#4 ++ (Width.ofBit (b0.getLsbD 3)).bit ++ b0.extractLsb' 0 3
  | .movRmImm => 0b1100011#7 ++ (Width.ofBit (b0.getLsbD 0)).bit
  | .movAccMem => 0b1010000#7 ++ (Width.ofBit (b0.getLsbD 0)).bit
  | .movMemAcc => 0b1010001#7 ++ (Width.ofBit (b0.getLsbD 0)).bit
  | .aluRmReg k => 0#2 ++ k.bits ++ 0#1 ++ (Dir.ofBit (b0.getLsbD 1)).bit ++ (Width.ofBit (b0.getLsbD 0)).bit
  | .aluRmImm => if b0.getLsbD 1 then 0x83 else if b0.getLsbD 0 then 0x81 else 0x80
  | .aluAccImm k => 0#2 ++ k.bits ++ 2#2 ++ (Width.ofBit (b0.getLsbD 0)).bit
  | .je => 0x74
  | .jne => 0x75

/-- A byte of a row of the opcode map is the one its family's format writes. -/
theorem opcode_of_familyOf {b0 : Byte} {f : Family} (h : familyOf b0 = some f) : f.opcode b0 = b0 := by
  have key : ∀ b : Byte, ∀ g ∈ familyOf b, g.opcode b = b := by decide
  exact key b0 f h

/-! ## What the decoder took -/

/-- The bytes the encoder writes for an instruction read from `bs`: all of `bs`, in `C6`/`C7` with the ignored field cleared
(R93). -/
def Instr.encodedForm (i : Instr) (bs : List Byte) : List Byte :=
  match i with
  | .movRmImm _ _ => Claims.clearRegField bs
  | _ => bs

/-- `i` is well formed and is encoded as the opcode byte `b0` and the bytes `bs`, up to the ignored field. -/
def ReadFrom (i : Instr) (b0 : Byte) (bs : List Byte) : Prop := i.wf = true ∧ encode i = i.encodedForm (b0 :: bs)

theorem aluRmRegInstr_readFrom (k : AluKind) (d : Dir) (w : Width) (reg : RegCode) {rm : RmOp} (h : rm.wf = true) :
    ReadFrom (aluRmRegInstr k d w reg rm) (0#2 ++ k.bits ++ 0#1 ++ d.bit ++ w.bit) (rm.bytes (regBits reg)) := by
  cases k <;> exact ⟨h, rfl⟩

theorem aluAccImmInstr_readFrom (k : AluKind) (imm : Imm) :
    ReadFrom (aluAccImmInstr k imm) (0#2 ++ k.bits ++ 2#2 ++ imm.width.bit) imm.bytes := by
  cases k <;> exact ⟨rfl, rfl⟩

theorem aluRmImm80Instr_readFrom (k : AluKind) {rm : RmOp} (h : rm.wf = true) (v : Byte) :
    ReadFrom (aluRmImm80Instr k rm v) 0x80 (rm.bytes k.bits ++ [v]) := by
  cases k <;> exact ⟨h, rfl⟩

theorem aluRmImm81Instr_readFrom (k : AluKind) {rm : RmOp} (h : rm.wf = true) (v : Word) :
    ReadFrom (aluRmImm81Instr k rm v) 0x81 (rm.bytes k.bits ++ wordBytes v) := by
  cases k <;> exact ⟨h, rfl⟩

theorem aluRmImm83Instr_readFrom (k : AluKind) {rm : RmOp} (h : rm.wf = true) (v : Byte) :
    ReadFrom (aluRmImm83Instr k rm v) 0x83 (rm.bytes k.bits ++ [v]) := by
  cases k <;> exact ⟨h, rfl⟩

/-- Clearing bits 5 to 3 of a ModRM byte leaves the fields that name the r/m operand. -/
theorem clear_regField (m : BitVec 2) (reg f : BitVec 3) : (m ++ reg ++ f : BitVec 8) &&& 0xC7 = m ++ 0#3 ++ f := by
  revert m reg f; decide

theorem movRmImm_readFrom {rm : RmOp} (h : rm.wf = true) (imm : Imm) (reg : BitVec 3) :
    ReadFrom (.movRmImm rm imm) (0b1100011#7 ++ imm.width.bit) (rm.bytes reg ++ imm.bytes) := by
  refine ⟨h, ?_⟩
  simp only [Instr.encodedForm, RmOp.bytes, List.cons_append, Claims.clearRegField, clear_regField, encode]
  rfl

/-- A supported operation field is the one of its operation (R72). -/
theorem bits_of_ofField {f : BitVec 3} {k : AluKind} (h : AluKind.ofField f = some k) : k.bits = f := by
  have key : ∀ g : BitVec 3, ∀ l ∈ AluKind.ofField g, l.bits = g := by decide
  exact key f k h

/-- The immediate of an `80`, `81`, `83` row, read after its r/m operand `rm`, which took `bs`. -/
theorem decodeAluRmImm_took {s w : Bool} {k : AluKind} {rm : RmOp} {r0 r r' : Reader} {i : Instr} (hwf : rm.wf = true)
    (hrm : Took (rm.bytes k.bits) r0 r) (h : decodeAluRmImm s w k rm r = .ok (i, r')) :
    ∃ bs, Took bs r0 r' ∧ ReadFrom i (if s then 0x83 else if w then 0x81 else 0x80) bs := by
  cases s with
  | true =>
    obtain ⟨⟨v, r1⟩, hv, h⟩ := bind_eq_ok_iff.1 h
    cases h
    exact ⟨_, hrm.trans (next8_took hv), aluRmImm83Instr_readFrom k hwf v⟩
  | false =>
    cases w with
    | true =>
      obtain ⟨⟨v, r1⟩, hv, h⟩ := bind_eq_ok_iff.1 h
      cases h
      exact ⟨_, hrm.trans (next16_took hv), aluRmImm81Instr_readFrom k hwf v⟩
    | false =>
      obtain ⟨⟨v, r1⟩, hv, h⟩ := bind_eq_ok_iff.1 h
      cases h
      exact ⟨_, hrm.trans (next8_took hv), aluRmImm80Instr_readFrom k hwf v⟩

/-- What a family's decoding took after the opcode byte is what the encoder writes there (R82, R83). -/
theorem decodeFamily_took {f : Family} {b0 : Byte} {r r' : Reader} {i : Instr}
    (h : decodeFamily f b0 r = .ok (i, r')) : ∃ bs, Took bs r r' ∧ ReadFrom i (f.opcode b0) bs := by
  cases f with
  | movRmReg =>
    obtain ⟨⟨b1, r1⟩, hb, h⟩ := bind_eq_ok_iff.1 h
    obtain ⟨⟨rm, r2⟩, hrm, h⟩ := bind_eq_ok_iff.1 h
    cases h
    obtain ⟨hwf, htook⟩ := modRm_took hb hrm
    exact ⟨_, htook, hwf, rfl⟩
  | movRegImm =>
    obtain ⟨⟨imm, r1⟩, himm, h⟩ := bind_eq_ok_iff.1 h
    cases h
    obtain ⟨hw, htook⟩ := nextImm_took himm
    exact ⟨_, htook, rfl, by rw [Family.opcode, ← hw]; rfl⟩
  | movRmImm =>
    obtain ⟨⟨b1, r1⟩, hb, h⟩ := bind_eq_ok_iff.1 h
    obtain ⟨⟨rm, r2⟩, hrm, h⟩ := bind_eq_ok_iff.1 h
    obtain ⟨⟨imm, r3⟩, himm, h⟩ := bind_eq_ok_iff.1 h
    cases h
    obtain ⟨hwf, htook⟩ := modRm_took hb hrm
    obtain ⟨hw, htook'⟩ := nextImm_took himm
    exact ⟨_, htook.trans htook', by rw [Family.opcode, ← hw]; exact movRmImm_readFrom hwf imm _⟩
  | movAccMem =>
    obtain ⟨⟨a, r1⟩, ha, h⟩ := bind_eq_ok_iff.1 h
    cases h
    exact ⟨_, next16_took ha, rfl, rfl⟩
  | movMemAcc =>
    obtain ⟨⟨a, r1⟩, ha, h⟩ := bind_eq_ok_iff.1 h
    cases h
    exact ⟨_, next16_took ha, rfl, rfl⟩
  | aluRmReg k =>
    obtain ⟨⟨b1, r1⟩, hb, h⟩ := bind_eq_ok_iff.1 h
    obtain ⟨⟨rm, r2⟩, hrm, h⟩ := bind_eq_ok_iff.1 h
    cases h
    obtain ⟨hwf, htook⟩ := modRm_took hb hrm
    exact ⟨_, htook, aluRmRegInstr_readFrom k _ _ _ hwf⟩
  | aluRmImm =>
    obtain ⟨⟨b1, r1⟩, hb, h⟩ := bind_eq_ok_iff.1 h
    dsimp only at h
    split at h
    · cases h
    · rename_i k hk
      obtain ⟨⟨rm, r2⟩, hrm, h⟩ := bind_eq_ok_iff.1 h
      obtain ⟨hwf, htook⟩ := modRm_took hb hrm
      rw [← bits_of_ofField hk] at htook
      exact decodeAluRmImm_took hwf htook h
  | aluAccImm k =>
    obtain ⟨⟨imm, r1⟩, himm, h⟩ := bind_eq_ok_iff.1 h
    cases h
    obtain ⟨hw, htook⟩ := nextImm_took himm
    exact ⟨_, htook, by rw [Family.opcode, ← hw]; exact aluAccImmInstr_readFrom k imm⟩
  | je =>
    obtain ⟨⟨v, r1⟩, hv, h⟩ := bind_eq_ok_iff.1 h
    cases h
    exact ⟨_, next8_took hv, rfl, rfl⟩
  | jne =>
    obtain ⟨⟨v, r1⟩, hv, h⟩ := bind_eq_ok_iff.1 h
    cases h
    exact ⟨_, next8_took hv, rfl, rfl⟩

/-- What decodes begins with an opcode byte and the bytes its instruction is encoded as, up to the ignored field, and has
their length. -/
theorem decode_took {bs : List Byte} {i : Instr} {len : Nat} (h : decode bs = .ok (i, len)) :
    ∃ b0 cs rest, bs = (b0 :: cs) ++ rest ∧ len = (b0 :: cs).length ∧ ReadFrom i b0 cs := by
  cases bs with
  | nil => cases h
  | cons b0 bs =>
    simp only [decode, next8_cons, ok_bind] at h
    split at h
    · cases h
    · rename_i f hf
      obtain ⟨⟨j, r⟩, hj, h⟩ := bind_eq_ok_iff.1 h
      cases h
      obtain ⟨cs, ⟨hrest, hlen⟩, hread⟩ := decodeFamily_took hj
      rw [opcode_of_familyOf hf] at hread
      exact ⟨b0, cs, r.rest, congrArg (b0 :: ·) hrest, by rw [hlen, List.length_cons, Nat.add_comm], hread⟩

end Sys2Proof
end

section
/-! The obligations of decoding and encoding (30_encoding.md). -/

namespace Sys2Proof

/-- Settles O25: `decode_took` gives the bytes taken, which are the first `len` and encode the instruction. -/
theorem encodeOfDecode : Obligations.EncodeOfDecode := by
  intro bs i len h
  obtain ⟨b0, cs, rest, rfl, rfl, hwf, henc⟩ := decode_took h
  rw [List.take_left]
  exact ⟨hwf, by simp, by rw [henc]; rfl⟩

end Sys2Proof
end

section
/-! SUPPORT. The decoder on the encoder's bytes, family by family (R74 to R79). -/

namespace Sys2Proof

/-- The `w` bit at the end of an opcode byte (R86). -/
@[simp] theorem ofBit_getElem_bit (x : BitVec 7) (w : Width) : Width.ofBit (x ++ w.bit : BitVec 8)[0] = w := by
  revert x; cases w <;> decide

/-- The `d` bit before the `w` bit of an opcode byte (R68). -/
@[simp] theorem dirOfBit_getElem_bit (x : BitVec 6) (d : Dir) (w : Width) :
    Dir.ofBit (x ++ d.bit ++ w.bit : BitVec 8)[1] = d := by
  revert x; cases d <;> cases w <;> decide

@[simp] theorem AluKind.ofField_bits (k : AluKind) : AluKind.ofField k.bits = some k := by cases k <;> rfl

/-- The ModRM byte of an r/m operand (R62). -/
def RmOp.modRm (rm : RmOp) (reg : BitVec 3) : Byte := rm.modBits ++ reg ++ rm.rmBits

@[simp] theorem next8_rm_bytes (rm : RmOp) (reg : BitVec 3) (bs : List Byte) (n : Nat) :
    next8 ⟨rm.bytes reg ++ bs, n⟩ = .ok (rm.modRm reg, ⟨rm.tail ++ bs, n + 1⟩) := rfl

@[simp] theorem regField_modRm (rm : RmOp) (reg : BitVec 3) : regField (rm.modRm reg) = reg := regField_compose _ _ _

/-- The operand that a ModRM byte names is read back from its fields and its address bytes. -/
theorem nextRm_modRm {rm : RmOp} (h : rm.wf = true) (reg : BitVec 3) (bs : List Byte) (n : Nat) :
    nextRm (modField (rm.modRm reg)) (rmField (rm.modRm reg)) ⟨rm.tail ++ bs, n + 1⟩ =
      .ok (rm, ⟨bs, n + (rm.bytes reg).length⟩) := by
  rw [RmOp.modRm, modField_compose, rmField_compose, nextRm_tail rm h]
  simp [Nat.add_assoc]

/-- `i` is what a family reads after the opcode byte `b0` from the bytes `bs`, whatever bytes follow. -/
def Reads (f : Family) (b0 : Byte) (bs : List Byte) (i : Instr) : Prop :=
  ∀ (rest : List Byte) (n : Nat), decodeFamily f b0 ⟨bs ++ rest, n⟩ = .ok (i, ⟨rest, n + bs.length⟩)

theorem reads_movRmReg (x : BitVec 6) (d : Dir) (w : Width) (reg : RegCode) {rm : RmOp} (h : rm.wf = true) :
    Reads .movRmReg (x ++ d.bit ++ w.bit) (rm.bytes (regBits reg)) (.movRmReg d w reg rm) := by
  intro rest n
  simp [decodeFamily, nextRm_modRm h]

theorem reads_aluRmReg (k : AluKind) (x : BitVec 6) (d : Dir) (w : Width) (reg : RegCode) {rm : RmOp} (h : rm.wf = true) :
    Reads (.aluRmReg k) (x ++ d.bit ++ w.bit) (rm.bytes (regBits reg)) (aluRmRegInstr k d w reg rm) := by
  intro rest n
  simp [decodeFamily, nextRm_modRm h]

theorem reads_movRmImm (x : BitVec 7) (reg : BitVec 3) {rm : RmOp} (h : rm.wf = true) (imm : Imm) :
    Reads .movRmImm (x ++ imm.width.bit) (rm.bytes reg ++ imm.bytes) (.movRmImm rm imm) := by
  intro rest n
  simp [decodeFamily, nextRm_modRm h, nextImm_bytes]
  omega

theorem reads_movRegImm (reg : RegCode) (imm : Imm) :
    Reads .movRegImm (0b1011#4 ++ imm.width.bit ++ regBits reg) imm.bytes (.movRegImm reg imm) := by
  intro rest n
  have hw : ∀ r : RegCode, Width.ofBit (0b1011#4 ++ imm.width.bit ++ regBits r : BitVec 8)[3] = imm.width := by
    cases imm.width <;> decide
  have hreg : ∀ r : RegCode, (0b1011#4 ++ imm.width.bit ++ regBits r : BitVec 8).extractLsb' 0 3 = regBits r := by
    cases imm.width <;> decide
  simp [decodeFamily, nextImm_bytes, hw, hreg]

theorem reads_aluAccImm (k : AluKind) (x : BitVec 7) (imm : Imm) :
    Reads (.aluAccImm k) (x ++ imm.width.bit) imm.bytes (aluAccImmInstr k imm) := by
  intro rest n
  simp [decodeFamily, nextImm_bytes]

theorem reads_movAccMem (x : BitVec 7) (w : Width) (a : Word) :
    Reads .movAccMem (x ++ w.bit) (wordBytes a) (.movAccMem w a) := by
  intro rest n
  simp [decodeFamily, next16_wordBytes]

theorem reads_movMemAcc (x : BitVec 7) (w : Width) (a : Word) :
    Reads .movMemAcc (x ++ w.bit) (wordBytes a) (.movMemAcc w a) := by
  intro rest n
  simp [decodeFamily, next16_wordBytes]

theorem reads_aluRmImm80 (k : AluKind) {rm : RmOp} (h : rm.wf = true) (v : Byte) :
    Reads .aluRmImm 0x80 (rm.bytes k.bits ++ [v]) (aluRmImm80Instr k rm v) := by
  intro rest n
  simp [decodeFamily, nextRm_modRm h, decodeAluRmImm, Nat.add_assoc]

theorem reads_aluRmImm81 (k : AluKind) {rm : RmOp} (h : rm.wf = true) (v : Word) :
    Reads .aluRmImm 0x81 (rm.bytes k.bits ++ wordBytes v) (aluRmImm81Instr k rm v) := by
  intro rest n
  simp [decodeFamily, nextRm_modRm h, decodeAluRmImm, next16_wordBytes, Nat.add_assoc]

theorem reads_aluRmImm83 (k : AluKind) {rm : RmOp} (h : rm.wf = true) (v : Byte) :
    Reads .aluRmImm 0x83 (rm.bytes k.bits ++ [v]) (aluRmImm83Instr k rm v) := by
  intro rest n
  simp [decodeFamily, nextRm_modRm h, decodeAluRmImm, Nat.add_assoc]

/-! ## From a family to the decoder -/

theorem decode_of_reads {b0 : Byte} {f : Family} {bs : List Byte} {i : Instr} (hf : familyOf b0 = some f)
    (h : Reads f b0 bs i) (rest : List Byte) : decode (b0 :: bs ++ rest) = .ok (i, (b0 :: bs).length) := by
  simp [decode, hf, h rest 1, Nat.add_comm]

theorem decode_encodeAluRmReg (k : AluKind) (d : Dir) (w : Width) (reg : RegCode) {rm : RmOp} (h : rm.wf = true)
    (rest : List Byte) : decode (encodeAluRmReg k d w reg rm ++ rest) =
      .ok (aluRmRegInstr k d w reg rm, (encodeAluRmReg k d w reg rm).length) :=
  decode_of_reads (by cases k <;> cases d <;> cases w <;> rfl) (reads_aluRmReg k _ d w reg h) rest

theorem decode_encodeAluAccImm (k : AluKind) (imm : Imm) (rest : List Byte) :
    decode (encodeAluAccImm k imm ++ rest) = .ok (aluAccImmInstr k imm, (encodeAluAccImm k imm).length) :=
  decode_of_reads (by cases k <;> cases imm.width <;> rfl) (reads_aluAccImm k _ imm) rest

/-- Decoding an encoded well-formed instruction, row by row. -/
theorem decode_encode (i : Instr) (h : i.wf = true) (rest : List Byte) :
    decode (encode i ++ rest) = .ok (i, (encode i).length) := by
  cases i with
  | movRmReg d w reg rm => exact decode_of_reads (by cases d <;> cases w <;> rfl) (reads_movRmReg _ d w reg h) rest
  | movRegImm reg imm =>
    have hf : ∀ r : RegCode, familyOf (0b1011#4 ++ imm.width.bit ++ regBits r) = some .movRegImm := by
      cases imm.width <;> decide
    exact decode_of_reads (hf reg) (reads_movRegImm reg imm) rest
  | movRmImm rm imm => exact decode_of_reads (by cases imm.width <;> rfl) (reads_movRmImm _ 0 h imm) rest
  | movAccMem w a => exact decode_of_reads (by cases w <;> rfl) (reads_movAccMem _ w a) rest
  | movMemAcc w a => exact decode_of_reads (by cases w <;> rfl) (reads_movMemAcc _ w a) rest
  | addRmReg d w reg rm => exact decode_encodeAluRmReg .add d w reg h rest
  | subRmReg d w reg rm => exact decode_encodeAluRmReg .sub d w reg h rest
  | cmpRmReg d w reg rm => exact decode_encodeAluRmReg .cmp d w reg h rest
  | addRmImm80 rm v => exact decode_of_reads rfl (reads_aluRmImm80 .add h v) rest
  | addRmImm81 rm v => exact decode_of_reads rfl (reads_aluRmImm81 .add h v) rest
  | addRmImm83 rm v => exact decode_of_reads rfl (reads_aluRmImm83 .add h v) rest
  | subRmImm80 rm v => exact decode_of_reads rfl (reads_aluRmImm80 .sub h v) rest
  | subRmImm81 rm v => exact decode_of_reads rfl (reads_aluRmImm81 .sub h v) rest
  | subRmImm83 rm v => exact decode_of_reads rfl (reads_aluRmImm83 .sub h v) rest
  | cmpRmImm80 rm v => exact decode_of_reads rfl (reads_aluRmImm80 .cmp h v) rest
  | cmpRmImm81 rm v => exact decode_of_reads rfl (reads_aluRmImm81 .cmp h v) rest
  | cmpRmImm83 rm v => exact decode_of_reads rfl (reads_aluRmImm83 .cmp h v) rest
  | addAccImm imm => exact decode_encodeAluAccImm .add imm rest
  | subAccImm imm => exact decode_encodeAluAccImm .sub imm rest
  | cmpAccImm imm => exact decode_encodeAluAccImm .cmp imm rest
  | je v => exact decode_of_reads rfl (fun _ _ => rfl) rest
  | jne v => exact decode_of_reads rfl (fun _ _ => rfl) rest

end Sys2Proof
end

section
/-! The obligations of decoding and encoding (30_encoding.md). -/

namespace Sys2Proof

/-- Settles O24: `decode_encode`. -/
theorem decodeOfEncode : Obligations.DecodeOfEncode := fun i rest h => decode_encode i h rest

end Sys2Proof
end

section
/-! SUPPORT. How far the decoder reads: the ignored field of `C6` and `C7` (R93), the length table (R84), and where a decoding
that runs out of bytes has stopped (R88 to R90). -/

namespace Sys2Proof

open Sys2Proof.Claims Sys2Proof.Laws

/-! ## The ignored field -/

/-- In `C6` and `C7` the ModRM byte is read through its `mod` and `rm` fields alone. -/
theorem decode_movRmImm_of_fields {b0 b1 b1' : Byte} (hf : familyOf b0 = some .movRmImm)
    (hmod : modField b1 = modField b1') (hrm : rmField b1 = rmField b1') (rest : List Byte) :
    decode (b0 :: b1 :: rest) = decode (b0 :: b1' :: rest) := by
  simp [decode, hf, decodeFamily, hmod, hrm]

theorem modField_clear (b : Byte) : modField (b &&& 0xC7) = modField b := by revert b; decide

theorem rmField_clear (b : Byte) : rmField (b &&& 0xC7) = rmField b := by revert b; decide

/-! ## The length table -/

/-- The mode whose `rm` field is 110 is `bp`, which has no encoding without a displacement (R65, R66). -/
theorem bare_bp_not_wf {mode : EaMode} (h : mode.bits = 6) : ¬ (RmOp.mem (.ea mode .none)).wf = true := by
  cases mode <;> revert h <;> decide

/-- The ModRM byte of an r/m operand asks for the operand's address bytes (R84). -/
theorem modrmAddressBytes_modRm {rm : RmOp} (h : rm.wf = true) (reg : BitVec 3) :
    modrmAddressBytes (rm.modRm reg) = addressBytes rm := by
  cases rm with
  | reg c =>
    have key : ∀ (c : RegCode) (reg : BitVec 3), modrmAddressBytes (3#2 ++ reg ++ regBits c) = 0 := by decide
    exact key c reg
  | mem m =>
    cases m with
    | direct a =>
      have key : ∀ reg : BitVec 3, modrmAddressBytes (0#2 ++ reg ++ 6#3) = 2 := by decide
      exact key reg
    | ea mode d =>
      have key : ∀ (reg f : BitVec 3), modrmAddressBytes (1#2 ++ reg ++ f) = 1 ∧ modrmAddressBytes (2#2 ++ reg ++ f) = 2 ∧
          (f ≠ 6 → modrmAddressBytes (0#2 ++ reg ++ f) = 0) := by decide
      obtain ⟨h1, h2, h0⟩ := key reg mode.bits
      cases d with
      | none => exact h0 fun hbits => absurd h (bare_bp_not_wf hbits)
      | d8 v => exact h1
      | d16 v => exact h2

theorem modrmAddressBytes_clear (b : Byte) : modrmAddressBytes (b &&& 0xC7) = modrmAddressBytes b := by revert b; decide

/-- The length of a byte string is the one that R84's table gives its first two bytes. -/
def HasTableLength (bs : List Byte) : Prop :=
  ∃ b0 b1 tail, bs = b0 :: b1 :: tail ∧ bs.length = tableLength b0 b1

/-- A row whose second byte is a ModRM byte. -/
theorem hasTableLength_rm {b0 : Byte} {rm : RmOp} (h : rm.wf = true) (reg : BitVec 3) (tail : List Byte)
    (ht : ∀ b1, tableLength b0 b1 = 2 + tail.length + modrmAddressBytes b1) :
    HasTableLength (b0 :: (rm.bytes reg ++ tail)) := by
  refine ⟨b0, rm.modRm reg, rm.tail ++ tail, rfl, ?_⟩
  rw [ht, modrmAddressBytes_modRm h]
  simp; omega

theorem hasTableLength_rm_reg {b0 : Byte} {rm : RmOp} (h : rm.wf = true) (reg : BitVec 3)
    (ht : ∀ b1, tableLength b0 b1 = 2 + modrmAddressBytes b1) : HasTableLength (b0 :: rm.bytes reg) := by
  have key := hasTableLength_rm h reg [] ht
  rwa [List.append_nil] at key

theorem immBytes_eq (imm : Imm) : immBytes imm = imm.width.bytes := by cases imm <;> rfl

/-- A row whose length its opcode byte gives. -/
theorem hasTableLength_imm {b0 : Byte} (imm : Imm) (ht : ∀ b1, tableLength b0 b1 = 1 + imm.width.bytes) :
    HasTableLength (b0 :: imm.bytes) := by
  cases imm with
  | imm8 v => exact ⟨b0, v, [], rfl, (ht v).symm⟩
  | imm16 v => exact ⟨b0, _, _, rfl, (ht _).symm⟩

theorem hasTableLength_aluRmReg (k : AluKind) (d : Dir) (w : Width) (reg : RegCode) {rm : RmOp} (h : rm.wf = true) :
    HasTableLength (encodeAluRmReg k d w reg rm) :=
  hasTableLength_rm_reg h _ (by intro b1; cases k <;> cases d <;> cases w <;> rfl)

theorem hasTableLength_aluAccImm (k : AluKind) (imm : Imm) : HasTableLength (encodeAluAccImm k imm) :=
  hasTableLength_imm imm (by intro b1; cases k <;> cases imm.width <;> rfl)

/-- Every well-formed instruction is encoded in the number of bytes of R84's table. -/
theorem hasTableLength_encode (i : Instr) (h : i.wf = true) : HasTableLength (encode i) := by
  cases i with
  | movRmReg d w reg rm => exact hasTableLength_rm_reg h _ (by intro b1; cases d <;> cases w <;> rfl)
  | movRegImm reg imm =>
    refine hasTableLength_imm imm fun b1 => ?_
    clear h
    cases imm.width <;> fin_cases reg <;> rfl
  | movRmImm rm imm =>
    refine hasTableLength_rm h 0 _ fun b1 => ?_
    rw [length_imm_bytes, immBytes_eq]
    cases imm.width <;> rfl
  | movAccMem w a => exact hasTableLength_imm (.imm16 a) (by intro b1; cases w <;> rfl)
  | movMemAcc w a => exact hasTableLength_imm (.imm16 a) (by intro b1; cases w <;> rfl)
  | addRmReg d w reg rm => exact hasTableLength_aluRmReg .add d w reg h
  | subRmReg d w reg rm => exact hasTableLength_aluRmReg .sub d w reg h
  | cmpRmReg d w reg rm => exact hasTableLength_aluRmReg .cmp d w reg h
  | addRmImm80 rm v => exact hasTableLength_rm h _ [v] fun _ => rfl
  | addRmImm81 rm v => exact hasTableLength_rm h _ (wordBytes v) fun _ => rfl
  | addRmImm83 rm v => exact hasTableLength_rm h _ [v] fun _ => rfl
  | subRmImm80 rm v => exact hasTableLength_rm h _ [v] fun _ => rfl
  | subRmImm81 rm v => exact hasTableLength_rm h _ (wordBytes v) fun _ => rfl
  | subRmImm83 rm v => exact hasTableLength_rm h _ [v] fun _ => rfl
  | cmpRmImm80 rm v => exact hasTableLength_rm h _ [v] fun _ => rfl
  | cmpRmImm81 rm v => exact hasTableLength_rm h _ (wordBytes v) fun _ => rfl
  | cmpRmImm83 rm v => exact hasTableLength_rm h _ [v] fun _ => rfl
  | addAccImm imm => exact hasTableLength_aluAccImm .add imm
  | subAccImm imm => exact hasTableLength_aluAccImm .sub imm
  | cmpAccImm imm => exact hasTableLength_aluAccImm .cmp imm
  | je v => exact hasTableLength_imm (.imm8 v) fun _ => rfl
  | jne v => exact hasTableLength_imm (.imm8 v) fun _ => rfl

/-- The ignored field does not enter the length table either. -/
theorem hasTableLength_of_clearRegField {bs : List Byte} (h : HasTableLength (clearRegField bs)) : HasTableLength bs := by
  obtain ⟨b0, b1, tail, hbs, hlen⟩ := h
  match bs with
  | [] => cases hbs
  | [_] => cases hbs
  | c0 :: c1 :: cs =>
    cases hbs
    refine ⟨_, _, _, rfl, hlen.trans ?_⟩
    simp only [tableLength, modrmAddressBytes_clear]

/-- What an instruction was read from has the length of R84's table. -/
theorem hasTableLength_of_readFrom {i : Instr} {b0 : Byte} {bs : List Byte} (h : ReadFrom i b0 bs) :
    HasTableLength (b0 :: bs) := by
  obtain ⟨hwf, henc⟩ := h
  have hlen := henc ▸ hasTableLength_encode i hwf
  cases i with
  | movRmImm rm imm => exact hasTableLength_of_clearRegField hlen
  | _ => exact hlen

/-! ## How far the operations read -/

variable {α β : Type}

/-- A decoder operation that takes at most `k` bytes from the front of its source, whose answer depends on the bytes it took
alone, and which runs out only at the end of its source. -/
structure Fetches (k : Nat) (m : Reader → Except DecodeError (α × Reader)) : Prop where
  answer : ∀ {r a r'}, m r = .ok (a, r') → ∃ bs, Took bs r r' ∧ bs.length ≤ k ∧
    ∀ rest n, m ⟨bs ++ rest, n⟩ = .ok (a, ⟨rest, n + bs.length⟩)
  runsOut : ∀ {r j}, m r = .error (.outOfBounds j) → j = r.len + r.rest.length ∧ j < r.len + k

/-- An operation that reads nothing. -/
theorem Fetches.pure (k : Nat) (a : α) : Fetches k (fun r => pure (a, r)) where
  answer hm := by
    cases hm
    exact ⟨[], ⟨rfl, rfl⟩, Nat.zero_le k, fun _ _ => rfl⟩
  runsOut hm := by cases hm

/-- Finding an unsupported operation reads nothing more. -/
theorem Fetches.unrecognized (k : Nat) (b0 b1 : Byte) :
    Fetches (α := α) k (fun _ => .error (.unrecognizedOperation b0 b1)) where
  answer hm := by cases hm
  runsOut hm := by cases hm

/-- An operation and then one that its answer selects. -/
theorem Fetches.bind {k l : Nat} {m : Reader → Except DecodeError (α × Reader)}
    {f : α → Reader → Except DecodeError (β × Reader)} (hm : Fetches k m) (hf : ∀ a, Fetches l (f a)) :
    Fetches (k + l) (fun r => m r >>= fun p => f p.1 p.2) where
  answer h := by
    obtain ⟨⟨a, r1⟩, ha, hb⟩ := bind_eq_ok_iff.1 h
    obtain ⟨bs, htook, hlen, hsame⟩ := hm.answer ha
    obtain ⟨cs, htook', hlen', hsame'⟩ := (hf a).answer hb
    refine ⟨bs ++ cs, htook.trans htook', by rw [List.length_append]; omega, fun rest n => ?_⟩
    rw [List.append_assoc, hsame, ok_bind, hsame', List.length_append, Nat.add_assoc]
  runsOut {r j} h := by
    cases ha : m r with
    | error e =>
      rw [ha] at h
      obtain ⟨hj, hlt⟩ := hm.runsOut (ha.trans (congrArg _ (Except.error.inj h)))
      exact ⟨hj, by omega⟩
    | ok p =>
      obtain ⟨a, r1⟩ := p
      rw [ha, ok_bind] at h
      obtain ⟨bs, ⟨hrest, hlen1⟩, hlen, -⟩ := hm.answer ha
      obtain ⟨hj, hlt⟩ : j = r1.len + r1.rest.length ∧ j < r1.len + l := (hf a).runsOut h
      have hsplit : r.rest.length = bs.length + r1.rest.length := by rw [hrest, List.length_append]
      exact ⟨by omega, by omega⟩

theorem fetches_next8 : Fetches 1 next8 where
  answer {r b r'} h := ⟨[b], next8_took h, le_rfl, fun _ _ => rfl⟩
  runsOut {r j} h := by
    obtain ⟨rest, len⟩ := r
    cases rest with
    | nil => cases h; exact ⟨rfl, Nat.lt_succ_self _⟩
    | cons b bs => cases h

theorem fetches_next16 : Fetches 2 next16 :=
  fetches_next8.bind fun _ => fetches_next8.bind fun _ => Fetches.pure 0 _

theorem fetches_nextImm (w : Width) : Fetches 2 (nextImm w) := by
  cases w with
  | byte => exact fetches_next8.bind fun _ => Fetches.pure 1 _
  | word => exact fetches_next16.bind fun _ => Fetches.pure 0 _

theorem fetches_nextRm (mod : BitVec 2) (f : BitVec 3) : Fetches 2 (nextRm mod f) := by
  unfold nextRm
  split
  · split
    · exact fetches_next16.bind fun a => Fetches.pure 0 (RmOp.mem (.direct a))
    · exact Fetches.pure 2 _
  · exact fetches_next8.bind fun v => Fetches.pure 1 (RmOp.mem (.ea (EaMode.ofField f) (.d8 v)))
  · exact fetches_next16.bind fun v => Fetches.pure 0 (RmOp.mem (.ea (EaMode.ofField f) (.d16 v)))
  · exact Fetches.pure 2 _

theorem fetches_decodeAluRmImm (s w : Bool) (k : AluKind) (rm : RmOp) : Fetches 2 (decodeAluRmImm s w k rm) := by
  unfold decodeAluRmImm
  split
  · exact fetches_next8.bind fun _ => Fetches.pure 1 _
  · split
    · exact fetches_next16.bind fun _ => Fetches.pure 0 _
    · exact fetches_next8.bind fun _ => Fetches.pure 1 _

/-- A ModRM byte, the r/m operand it names, and what comes after them. -/
theorem fetches_modRm {k : Nat} {f : Byte → RmOp → Reader → Except DecodeError (α × Reader)}
    (hf : ∀ b1 rm, Fetches k (f b1 rm)) :
    Fetches (1 + (2 + k))
      (fun r => next8 r >>= fun p => nextRm (modField p.1) (rmField p.1) p.2 >>= fun q => f p.1 q.1 q.2) :=
  fetches_next8.bind fun b1 => (fetches_nextRm _ _).bind (hf b1)

/-- What the decoder does in `80`, `81` and `83` once the operation's byte `b1` is read (R72, R82). -/
def afterOperation (b0 b1 : Byte) (r : Reader) : Except DecodeError (Instr × Reader) :=
  match AluKind.ofField (regField b1) with
  | none => .error (.unrecognizedOperation b0 b1)
  | some k => nextRm (modField b1) (rmField b1) r >>= fun p => decodeAluRmImm (b0.getLsbD 1) (b0.getLsbD 0) k p.1 p.2

theorem decodeFamily_aluRmImm (b0 : Byte) (r : Reader) :
    decodeFamily .aluRmImm b0 r = next8 r >>= fun p => afterOperation b0 p.1 p.2 := rfl

theorem fetches_afterOperation (b0 b1 : Byte) : Fetches 4 (afterOperation b0 b1) := by
  cases hk : AluKind.ofField (regField b1) with
  | none =>
    have hstop : afterOperation b0 b1 = fun _ => .error (.unrecognizedOperation b0 b1) := by
      funext r; simp [afterOperation, hk]
    rw [hstop]
    exact Fetches.unrecognized 4 b0 b1
  | some k =>
    have hgo : afterOperation b0 b1 = fun r => nextRm (modField b1) (rmField b1) r >>= fun p =>
        decodeAluRmImm (b0.getLsbD 1) (b0.getLsbD 0) k p.1 p.2 := by
      funext r; simp [afterOperation, hk]
    rw [hgo]
    exact (fetches_nextRm _ _).bind (fetches_decodeAluRmImm _ _ k)

/-- After the opcode byte a family reads at most five bytes: ModRM, two of address, two of immediate (R84). -/
theorem fetches_decodeFamily (f : Family) (b0 : Byte) : Fetches 5 (decodeFamily f b0) := by
  cases f with
  | movRmReg => exact fetches_modRm fun b1 rm => Fetches.pure 2 (Instr.movRmReg _ _ (regOf (regField b1)) rm)
  | movRegImm => exact (fetches_nextImm _).bind fun _ => Fetches.pure 3 _
  | movRmImm => exact fetches_modRm fun b1 rm => (fetches_nextImm _).bind fun imm => Fetches.pure 0 (Instr.movRmImm rm imm)
  | movAccMem => exact fetches_next16.bind fun _ => Fetches.pure 3 _
  | movMemAcc => exact fetches_next16.bind fun _ => Fetches.pure 3 _
  | aluRmReg k => exact fetches_modRm fun b1 rm => Fetches.pure 2 (aluRmRegInstr k _ _ (regOf (regField b1)) rm)
  | aluRmImm => exact fetches_next8.bind (fetches_afterOperation b0)
  | aluAccImm k => exact (fetches_nextImm _).bind fun _ => Fetches.pure 3 _
  | je => exact fetches_next8.bind fun _ => Fetches.pure 4 _
  | jne => exact fetches_next8.bind fun _ => Fetches.pure 4 _

/-- The decoder answers the family's decoding of what follows an accepted opcode byte. -/
theorem decode_cons {b0 : Byte} {f : Family} (hf : familyOf b0 = some f) (bs : List Byte) :
    decode (b0 :: bs) = decodeFamily f b0 ⟨bs, 1⟩ >>= fun p => pure (p.1, p.2.len) := by
  simp only [decode, next8_cons, ok_bind, hf]

theorem decode_cons_of_none {b0 : Byte} (hf : familyOf b0 = none) (bs : List Byte) :
    decode (b0 :: bs) = .error (.unrecognizedOpcode b0) := by
  simp only [decode, next8_cons, ok_bind, hf]

/-- The bytes that a completed decoding took decode the same way whatever follows them. -/
theorem decode_take_append {bs : List Byte} {i : Instr} {len : Nat} (h : decode bs = .ok (i, len)) (rest : List Byte) :
    decode (bs.take len ++ rest) = .ok (i, len) := by
  cases bs with
  | nil => cases h
  | cons b0 bs =>
    cases hf : familyOf b0 with
    | none => rw [decode_cons_of_none hf] at h; cases h
    | some f =>
      rw [decode_cons hf] at h
      obtain ⟨⟨j, r⟩, hj, h⟩ := bind_eq_ok_iff.1 h
      cases h
      obtain ⟨cs, ⟨hrest, hlen⟩, -, hsame⟩ := (fetches_decodeFamily f b0).answer hj
      obtain rfl : bs = cs ++ r.rest := hrest
      have htake : (b0 :: (cs ++ r.rest)).take r.len = b0 :: cs := by
        rw [hlen, Nat.add_comm, List.take_succ_cons, List.take_left]
      rw [htake, List.cons_append, decode_cons hf, hsame, hlen]
      rfl

/-- A decoding runs out only at the end of its source, and within the longest instruction. -/
theorem decode_runsOut {bs : List Byte} {k : Nat} (h : decode bs = .error (.outOfBounds k)) : k = bs.length ∧ k < 6 := by
  cases bs with
  | nil => cases h; exact ⟨rfl, by decide⟩
  | cons b0 bs =>
    cases hf : familyOf b0 with
    | none => rw [decode_cons_of_none hf] at h; cases h
    | some f =>
      rw [decode_cons hf] at h
      cases hd : decodeFamily f b0 ⟨bs, 1⟩ with
      | ok p => rw [hd] at h; cases h
      | error e =>
        rw [hd] at h
        cases h
        obtain ⟨hk, hlt⟩ := (fetches_decodeFamily f b0).runsOut hd
        exact ⟨by simpa [Nat.add_comm] using hk, hlt⟩

end Sys2Proof
end

section
/-! The obligations of decoding: how far it reads (30_encoding.md). -/

namespace Sys2Proof

open Sys2Proof.Claims

/-- Settles O26: the bytes taken have the table's length because they encode the instruction, up to the ignored field; that no
other byte matters is `decode_take_append`. -/
theorem decodedLengthFromFirstTwoBytes : Obligations.DecodedLengthFromFirstTwoBytes := by
  intro bs i len h
  refine ⟨?_, decode_take_append h⟩
  obtain ⟨b0, cs, rest, rfl, rfl, hread⟩ := decode_took h
  obtain ⟨c0, c1, tail, hcs, hlen⟩ := hasTableLength_of_readFrom hread
  exact ⟨c0, c1, tail ++ rest, by rw [hcs]; rfl, hlen⟩

/-- Settles O27: `decode_runsOut`. -/
theorem decodeOutOfBoundsOnlyPastEnd : Obligations.DecodeOutOfBoundsOnlyPastEnd := fun _ _ => decode_runsOut

/-- Settles O28: the `mod` and `rm` fields lie outside bits 5 to 3. -/
theorem ignoredRegisterField : Obligations.IgnoredRegisterField := by
  intro b0 b1 b1' rest hb0 hb1
  have hf : familyOf b0 = some .movRmImm := by rcases hb0 with rfl | rfl <;> rfl
  refine decode_movRmImm_of_fields hf ?_ ?_ rest
  · rw [← modField_clear b1, hb1, modField_clear]
  · rw [← rmField_clear b1, hb1, rmField_clear]

end Sys2Proof
end

section
/-! SUPPORT. The disassembler's loop over encoded instructions (R100). -/

namespace Sys2Proof.Machine

open Sys2Proof.Claims

/-- The lines of a listing of encoded instructions, the first at position `p`. -/
def linesFrom (p : Nat) (is : List Instr) : List Line := List.zipWith (fun p i => ⟨p, render i⟩) (startsFrom p is) is

@[simp] theorem linesFrom_nil (p : Nat) : linesFrom p [] = [] := rfl

@[simp] theorem linesFrom_cons (p : Nat) (i : Instr) (is : List Instr) :
    linesFrom p (i :: is) = ⟨p, render i⟩ :: linesFrom (p + (encode i).length) is := rfl

/-- A listing with lines put before it. -/
def Listing.after (ls : List Line) (l : Listing) : Listing := ⟨ls ++ l.lines, l.stop⟩

@[simp] theorem Listing.after_nil (l : Listing) : l.after [] = l := rfl

/-- The loop stops without a fault at the end of its source. -/
theorem disassembleFrom_of_le {buf : List Byte} {c : Cursor} (h : buf.length ≤ c.position) (fuel : Nat) :
    disassembleFrom buf fuel c = ⟨[], none⟩ := by
  cases fuel with
  | zero => rfl
  | succ fuel => exact if_neg (Nat.not_lt.2 h)

/-- The loop stops with the fault's cause and position where the bytes do not decode (D19). -/
theorem disassembleFrom_of_error {buf : List Byte} {c : Cursor} {e : DecodeError} (hlt : c.position < buf.length)
    (h : decode (buf.drop c.position) = .error e) (fuel : Nat) :
    disassembleFrom buf (fuel + 1) c = ⟨[], some (causeOfDecode c.position e, c.position)⟩ := by
  simp [disassembleFrom, hlt, Cursor.decode, h]

/-- One turn of the loop: a line for the instruction at the cursor, and the rest from behind it. -/
theorem disassembleFrom_of_ok {buf : List Byte} {c : Cursor} {i : Instr} {len : Nat} (hlt : c.position < buf.length)
    (h : decode (buf.drop c.position) = .ok (i, len)) (fuel : Nat) :
    disassembleFrom buf (fuel + 1) c =
      (disassembleFrom buf fuel ⟨c.position + len, 0⟩).after [⟨c.position, render i⟩] := by
  simp [disassembleFrom, hlt, Cursor.decode, h, Cursor.extend, Cursor.commit, Listing.after]

/-- An encoding is at least two bytes long (R84). -/
theorem two_le_length_encode {i : Instr} (h : i.wf = true) : 2 ≤ (encode i).length := by
  obtain ⟨b0, b1, tail, hbytes, -⟩ := hasTableLength_encode i h
  simp [hbytes]

/-- A list of instructions is no longer than its encodings. -/
theorem length_le_length_flatMap_encode {is : List Instr} (h : ∀ i ∈ is, i.wf = true) :
    is.length ≤ (is.flatMap encode).length := by
  induction is with
  | nil => exact le_rfl
  | cons i is ih =>
    have htwo := two_le_length_encode (h i List.mem_cons_self)
    have hrest := ih fun j hj => h j (List.mem_cons_of_mem i hj)
    simp only [List.flatMap_cons, List.length_append, List.length_cons]
    omega

/-- Over encoded instructions behind `pre` the loop lists each at its address, and goes on with what follows them. -/
theorem disassembleFrom_flatMap_encode {is : List Instr} (h : ∀ i ∈ is, i.wf = true) (tail : List Byte) (fuel : Nat) :
    ∀ pre : List Byte, disassembleFrom (pre ++ (is.flatMap encode ++ tail)) (fuel + is.length) ⟨pre.length, 0⟩ =
      (disassembleFrom (pre ++ (is.flatMap encode ++ tail)) fuel ⟨pre.length + (is.flatMap encode).length, 0⟩).after
        (linesFrom pre.length is) := by
  induction is with
  | nil => intro pre; rfl
  | cons i is ih =>
    intro pre
    have hwf := h i List.mem_cons_self
    have htwo := two_le_length_encode hwf
    have hbuf : pre ++ ((i :: is).flatMap encode ++ tail) = pre ++ encode i ++ (is.flatMap encode ++ tail) := by
      simp
    have hlt : pre.length < (pre ++ ((i :: is).flatMap encode ++ tail)).length := by
      simp only [List.flatMap_cons, List.length_append]; omega
    have hdec : decode ((pre ++ ((i :: is).flatMap encode ++ tail)).drop pre.length) = .ok (i, (encode i).length) := by
      rw [List.drop_left, List.flatMap_cons, List.append_assoc, decode_encode i hwf]
    have hrest := ih (fun j hj => h j (List.mem_cons_of_mem i hj)) (pre ++ encode i)
    rw [List.length_cons, ← Nat.add_assoc, disassembleFrom_of_ok hlt hdec]
    rw [hbuf, ← List.length_append, hrest]
    simp [Listing.after, Nat.add_assoc]

end Sys2Proof.Machine
end

section
/-! The obligation of the disassembler (30_encoding.md section 7). -/

namespace Sys2Proof.Machine

open Sys2Proof.Claims

/-- Settles O29: the loop runs through the encodings by `disassembleFrom_flatMap_encode`, and then meets the end of its source
or the bytes that do not decode. -/
theorem disassemblyOfEncodedInstructions : Obligations.DisassemblyOfEncodedInstructions := by
  intro is bad e hwf
  have hfuel := length_le_length_flatMap_encode hwf
  refine ⟨?complete, fun hne hbad => ?stopped⟩
  case complete =>
    obtain ⟨fuel, hsum⟩ := Nat.exists_eq_add_of_le' hfuel
    have key := disassembleFrom_flatMap_encode hwf [] fuel []
    simp only [List.nil_append, List.append_nil, List.length_nil, Nat.zero_add, ← hsum] at key
    rw [disassemble, key, disassembleFrom_of_le le_rfl]
    simp [Listing.after, linesFrom]
  case stopped =>
    have hpos := List.length_pos_iff.2 hne
    have hlt : (is.flatMap encode).length < (is.flatMap encode ++ bad).length := by rw [List.length_append]; omega
    obtain ⟨fuel, hsum⟩ : ∃ fuel, (is.flatMap encode ++ bad).length = fuel + 1 + is.length :=
      ⟨(is.flatMap encode ++ bad).length - 1 - is.length, by omega⟩
    have key := disassembleFrom_flatMap_encode hwf bad (fuel + 1) []
    simp only [List.nil_append, List.length_nil, Nat.zero_add, ← hsum] at key
    rw [disassemble, key, disassembleFrom_of_error hlt (by rw [List.drop_left]; exact hbad)]
    simp [Listing.after, linesFrom]

end Sys2Proof.Machine
end

section
/-! SUPPORT. The state that a step answers, case by case, with what each case knows (R110). -/

namespace Sys2Proof.Machine

/-- Everything that a step from a running state can answer. -/
inductive StepAnswer (s : State) : State → Prop
  | halted (hend : s.progLen ≤ s.ip.toNat) : StepAnswer s s.halt
  | decodeFault {e : DecodeError} (hdec : decode s.fetchBytes = .error e) : StepAnswer s (s.raiseDecode e)
  | advanceFault {i : Instr} {len : Nat} (hdec : decode s.fetchBytes = .ok (i, len)) (hover : 0xFFFF < s.ip.toNat + len) :
      StepAnswer s (s.raiseAdvance len)
  | execFault {i : Instr} {len : Nat} {c : Cause} (hdec : decode s.fetchBytes = .ok (i, len))
      (hlen : s.ip.toNat + len ≤ 0xFFFF) (hkind : c.kind = .outOfBounds) : StepAnswer s ((s.advance len).raise c)
  | completed {i : Instr} {len : Nat} {u : State} (hdec : decode s.fetchBytes = .ok (i, len))
      (hlen : s.ip.toNat + len ≤ 0xFFFF) (hexec : exec i (s.advance len) = .next u)
      (hframe : u = { s.advance len with regs := u.regs, mem := u.mem, zf := u.zf, sf := u.sf, ip := u.ip })
      (hmem : s.mem.wf = true → u.mem.wf = true) : StepAnswer s { u with n := s.n + 1 }

theorem complete_of_faulted {s : State} (h : s.status = .faulted) : s.complete = s := if_pos h

theorem complete_of_not_faulted {s : State} (h : s.status ≠ .faulted) : s.complete = { s with n := s.n + 1 } := if_neg h

/-- A step that answers a state began in a running one, and its answer is one of `StepAnswer`. -/
theorem stepAnswer_of_step {s t : State} (h : step s = .next t) : s.status = .running ∧ StepAnswer s t := by
  rcases step_cases s with ⟨_, hs⟩ | ⟨_, hs⟩ | ⟨hrun, hend, hs⟩ | ⟨hrun, _, e, hdec, hs⟩ |
    ⟨hrun, _, i, len, hdec, hover, hs⟩ | ⟨hrun, _, i, len, hdec, hlen, hs⟩ <;> rw [hs] at h
  · cases h
  · cases h
  · cases h; exact ⟨hrun, .halted hend⟩
  · cases h; exact ⟨hrun, .decodeFault hdec⟩
  · cases h; exact ⟨hrun, .advanceFault hdec hover⟩
  · obtain ⟨u, hexec, rfl⟩ := retire_eq_next_iff.1 h
    refine ⟨hrun, ?_⟩
    rcases exec_cases i (s.advance len) with ⟨c, hkind, hraise⟩ | ⟨v, hnext, hframe, hmem⟩
    · obtain rfl : (s.advance len).raise c = u := Host.Outcome.next.inj (hraise.symm.trans hexec)
      rw [complete_of_faulted rfl]
      exact .execFault hdec hlen hkind
    · obtain rfl : v = u := Host.Outcome.next.inj (hnext.symm.trans hexec)
      have hstatus : v.status = .running := by rw [hframe]; exact hrun
      have hn : v.n = s.n := by rw [hframe]; rfl
      rw [complete_of_not_faulted (by simp [hstatus]), hn]
      exact .completed hdec hlen hexec hframe hmem

/-- The advance inside memory, as an integer (R110). -/
theorem toNat_advance_ip {s : State} {len : Nat} (h : s.ip.toNat + len ≤ 0xFFFF) :
    (s.advance len).ip.toNat = s.ip.toNat + len := by
  rw [State.advance_ip, BitVec.toNat_ofNat]
  omega

/-! ## What is fetched -/

theorem length_fetchBytes (s : State) : s.fetchBytes.length = min 6 (65536 - s.ip.toNat) := by
  simp [State.fetchBytes, Config.maxInstrLen, Config.memSize]

/-- A decoded instruction has at most as many bytes as the longest one (R84). -/
theorem decodedLength_le {s : State} {i : Instr} {len : Nat} (h : decode s.fetchBytes = .ok (i, len)) :
    len ≤ min 6 (65536 - s.ip.toNat) := by
  obtain ⟨-, hlen, -⟩ := encodeOfDecode _ _ _ h
  rwa [length_fetchBytes] at hlen

theorem pending_le_of_decode_error {bs : List Byte} {e : DecodeError} (h : decode bs = .error e) : e.pending ≤ 6 := by
  cases e with
  | unrecognizedOpcode b0 => exact (by decide : 1 ≤ 6)
  | unrecognizedOperation b0 b1 => exact (by decide : 2 ≤ 6)
  | outOfBounds k => exact (decode_runsOut h).2.le

/-- Decoding raises one of the two kinds that a program can raise (R192, R193). -/
theorem causeOfDecode_kind (position : Nat) (e : DecodeError) :
    (causeOfDecode position e).kind = .unrecognizedOpcode ∨ (causeOfDecode position e).kind = .outOfBounds := by
  cases e with
  | unrecognizedOpcode b0 => exact .inl rfl
  | unrecognizedOperation b0 b1 => exact .inl rfl
  | outOfBounds k => exact .inr rfl

/-! ## The invariant -/

/-- A state without a fault satisfies the invariant when its memory, length and cursor do. -/
theorem State.inv_of_not_faulted {s : State} (hmem : s.mem.wf = true) (hlen : s.progLen ≤ Config.memSize)
    (hfault : s.fault = none) (hstatus : s.status ≠ .faulted) (hpending : s.pending = 0) : s.Inv where
  memCanonical := hmem
  lengthInRange := hlen
  faultIffFaulted := iff_of_false (by simp [hfault]) hstatus
  recordProper r hr := by rw [hfault] at hr; cases hr
  pendingInRange := by rw [hpending]; exact Nat.zero_le _
  pendingConsumed _ := hpending

/-- Raising a fault of a kind that a program can raise keeps the invariant. -/
theorem State.inv_raise {s : State} {c : Cause} (hmem : s.mem.wf = true) (hlen : s.progLen ≤ Config.memSize)
    (hpending : s.pending ≤ Config.maxInstrLen) (hkind : c.kind = .unrecognizedOpcode ∨ c.kind = .outOfBounds) :
    (s.raise c).Inv where
  memCanonical := hmem
  lengthInRange := hlen
  faultIffFaulted := iff_of_true rfl rfl
  recordProper r hr := by cases hr; exact ⟨rfl, hkind⟩
  pendingInRange := hpending
  pendingConsumed h := absurd rfl h

/-- A running state that satisfies the invariant holds no fault record. -/
theorem State.Inv.fault_eq_none {s : State} (h : s.Inv) (hrun : s.status = .running) : s.fault = none := by
  have hnot : ¬ s.fault.isSome = true := by rw [h.faultIffFaulted, hrun]; decide
  simpa using hnot

end Sys2Proof.Machine
end

section
/-! The obligations of the step (40_execution_cycle.md): the invariant, the counter, faults. -/

namespace Sys2Proof.Machine

/-- Settles O6: case by case of `StepAnswer`; the pending length of a fault is bounded because the decoder reads at most six
bytes. -/
theorem stepKeepsInvariant : Obligations.StepKeepsInvariant := by
  intro s t hinv h
  obtain ⟨hrun, hans⟩ := stepAnswer_of_step h
  have hmem := hinv.memCanonical
  have hL := hinv.lengthInRange
  have hfault := hinv.fault_eq_none hrun
  have hpending := hinv.pendingConsumed (by simp [hrun])
  cases hans with
  | halted hend => exact State.inv_of_not_faulted hmem hL hfault (by simp) hpending
  | decodeFault hdec => exact State.inv_raise hmem hL (pending_le_of_decode_error hdec) (causeOfDecode_kind _ _)
  | advanceFault hdec hover =>
    exact State.inv_raise hmem hL ((decodedLength_le hdec).trans (Nat.min_le_left _ _)) (.inr rfl)
  | execFault hdec hlen hkind => exact State.inv_raise hmem hL (Nat.zero_le _) (.inr hkind)
  | completed hdec hlen hexec hframe hmem' =>
    refine State.inv_of_not_faulted (hmem' hmem) ?_ ?_ ?_ ?_ <;> rw [hframe]
    · exact hL
    · exact hfault
    · simp [hrun]
    · rfl

/-- Settles O10: a running block is in none of the cases without a next state, and execution always answers one. -/
theorem runningBlockAlwaysSteps : Obligations.RunningBlockAlwaysSteps := by
  intro s hrun
  rcases step_cases s with ⟨hs, _⟩ | ⟨hs, _⟩ | ⟨_, _, hs⟩ | ⟨_, _, _, _, hs⟩ | ⟨_, _, _, _, _, _, hs⟩ |
    ⟨_, _, i, len, _, _, hs⟩
  · cases hrun.symm.trans hs
  · cases hrun.symm.trans hs
  · exact ⟨_, hs⟩
  · exact ⟨_, hs⟩
  · exact ⟨_, hs⟩
  · rcases exec_cases i (s.advance len) with ⟨c, _, hexec⟩ | ⟨u, hexec, _, _⟩ <;> exact ⟨_, by rw [hs, hexec]; rfl⟩

/-- Settles O12: `n` is written by completion alone, which leaves the block running. -/
theorem ordinalCountsCompletedInstructions : Obligations.OrdinalCountsCompletedInstructions := by
  intro s t h
  obtain ⟨hrun, hans⟩ := stepAnswer_of_step h
  cases hans with
  | halted hend => exact ⟨nofun, fun _ => rfl⟩
  | decodeFault hdec => exact ⟨nofun, fun _ => rfl⟩
  | advanceFault hdec hover => exact ⟨nofun, fun _ => rfl⟩
  | execFault hdec hlen hkind => exact ⟨nofun, fun _ => rfl⟩
  | @completed i len u hdec hlen hexec hframe hmem =>
    have hstatus : u.status = .running := (congrArg State.status hframe).trans hrun
    exact ⟨fun _ => rfl, fun hnot => absurd hstatus hnot⟩

/-- Settles O14: a fault before the commit keeps `ip`; a fault in execution finds it advanced, and `exec_cases` says that it
changes nothing else. -/
theorem faultsArePrecise : Obligations.FaultsArePrecise := by
  intro s t h hfaulted
  obtain ⟨hrun, hans⟩ := stepAnswer_of_step h
  cases hans with
  | halted hend => cases hfaulted
  | decodeFault hdec =>
    refine ⟨rfl, rfl, rfl, rfl, rfl, rfl, ⟨_, rfl, rfl, rfl, rfl⟩, .inr ⟨rfl, ?_⟩⟩
    rintro ⟨i, len, hok, _⟩
    cases hdec.symm.trans hok
  | advanceFault hdec hover =>
    refine ⟨rfl, rfl, rfl, rfl, rfl, rfl, ⟨_, rfl, rfl, rfl, rfl⟩, .inr ⟨rfl, ?_⟩⟩
    rintro ⟨i, len, hok, hle⟩
    cases hdec.symm.trans hok
    omega
  | execFault hdec hlen hkind =>
    exact ⟨rfl, rfl, rfl, rfl, rfl, rfl, ⟨_, rfl, rfl, rfl, rfl⟩, .inl ⟨_, _, hdec, hlen, toNat_advance_ip hlen⟩⟩
  | completed hdec hlen hexec hframe hmem =>
    cases hrun.symm.trans ((congrArg State.status hframe).symm.trans hfaulted)

/-- Settles O15: `exec_cases` for an execution, `StepAnswer` for a step. -/
theorem programsRaiseOnlyTwoFaultKinds : Obligations.ProgramsRaiseOnlyTwoFaultKinds := by
  refine ⟨fun i s t hrun h hfaulted => ?execution, fun s t h hfaulted => ?step⟩
  case execution =>
    rcases exec_cases i s with ⟨c, hkind, hexec⟩ | ⟨u, hexec, hframe, _⟩
    · cases h.symm.trans hexec
      exact ⟨_, rfl, hkind⟩
    · obtain rfl : u = t := Host.Outcome.next.inj (hexec.symm.trans h)
      cases hrun.symm.trans ((congrArg State.status hframe).symm.trans hfaulted)
  case step =>
    obtain ⟨hrun, hans⟩ := stepAnswer_of_step h
    cases hans with
    | halted hend => cases hfaulted
    | decodeFault hdec => exact ⟨_, rfl, causeOfDecode_kind _ _⟩
    | advanceFault hdec hover => exact ⟨_, rfl, .inr rfl⟩
    | execFault hdec hlen hkind => exact ⟨_, rfl, .inr hkind⟩
    | completed hdec hlen hexec hframe hmem =>
      cases hrun.symm.trans ((congrArg State.status hframe).symm.trans hfaulted)

end Sys2Proof.Machine
end

section
/-! SUPPORT. The step from a running state, rule by rule (R110), and the bytes that it fetches (R46, R56). -/

namespace Sys2Proof.Machine

open Sys2Proof.Claims

theorem step_of_decode_error {s : State} {e : DecodeError} (hrun : s.status = .running) (hip : s.ip.toNat < s.progLen)
    (hdec : decode s.fetchBytes = .error e) : step s = .next (s.raiseDecode e) := by
  simp [step, State.fetchDecode, hrun, Nat.not_le.2 hip, hdec]

theorem step_of_advance_over {s : State} {i : Instr} {len : Nat} (hrun : s.status = .running)
    (hip : s.ip.toNat < s.progLen) (hdec : decode s.fetchBytes = .ok (i, len)) (hover : 0xFFFF < s.ip.toNat + len) :
    step s = .next (s.raiseAdvance len) := by
  simp [step, State.fetchDecode, hrun, Nat.not_le.2 hip, hdec, Nat.not_le.2 hover]

theorem step_of_decode_ok {s : State} {i : Instr} {len : Nat} (hrun : s.status = .running)
    (hip : s.ip.toNat < s.progLen) (hdec : decode s.fetchBytes = .ok (i, len)) (hlen : s.ip.toNat + len ≤ 0xFFFF) :
    step s = retire (exec i (s.advance len)) := by
  simp [step, State.fetchDecode, hrun, Nat.not_le.2 hip, hdec, hlen]

/-- The byte `k` of what is fetched is the one at `ip + k`. -/
theorem fetchBytes_getElem? {s : State} {k : Nat} (hk : k < 6) (hin : s.ip.toNat + k < 65536) :
    s.fetchBytes[k]? = some (s.mem.read (s.ip.toNat + k)) := by
  have hlt : k < min 6 (65536 - s.ip.toNat) := by omega
  simp [State.fetchBytes, Config.maxInstrLen, Config.memSize, List.getElem?_range hlt]

theorem fetchBytes_eq_cons (s : State) : ∃ rest, s.fetchBytes = s.mem.read s.ip.toNat :: rest := by
  have h0 := fetchBytes_getElem? (s := s) (k := 0) (by decide) s.ip.isLt
  cases hb : s.fetchBytes with
  | nil => simp [hb] at h0
  | cons b rest =>
    obtain rfl : b = s.mem.read s.ip.toNat := by simpa [hb] using h0
    exact ⟨rest, rfl⟩

theorem fetchBytes_eq_cons_cons {s : State} (hin : s.ip.toNat + 1 ≤ 0xFFFF) :
    ∃ rest, s.fetchBytes = s.mem.read s.ip.toNat :: s.mem.read (s.ip.toNat + 1) :: rest := by
  obtain ⟨bs, hbs⟩ := fetchBytes_eq_cons s
  have h1 := fetchBytes_getElem? (s := s) (k := 1) (by decide) (by omega)
  cases bs with
  | nil => simp [hbs] at h1
  | cons b rest =>
    obtain rfl : b = s.mem.read (s.ip.toNat + 1) := by simpa [hbs] using h1
    exact ⟨rest, hbs⟩

/-! ## What is refused -/

/-- The opcode map and the statements' table of accepted bytes agree on every byte (R80). -/
theorem familyOf_isSome (b : Byte) : (familyOf b).isSome = acceptedOpcode b := by revert b; decide

theorem familyOf_eq_none {b : Byte} (h : acceptedOpcode b = false) : familyOf b = none := by
  rwa [← familyOf_isSome, Option.isSome_eq_false_iff, Option.isNone_iff_eq_none] at h

theorem ofField_eq_none {b1 : Byte} (h : supportedOperation b1 = false) : AluKind.ofField (regField b1) = none := by
  have key : ∀ b : Byte, supportedOperation b = false → AluKind.ofField (regField b) = none := by decide
  exact key b1 h

theorem decode_of_unsupported {b0 b1 : Byte} (hf : familyOf b0 = some .aluRmImm) (h : supportedOperation b1 = false)
    (rest : List Byte) : decode (b0 :: b1 :: rest) = .error (.unrecognizedOperation b0 b1) := by
  rw [decode_cons hf, decodeFamily_aluRmImm]
  simp [afterOperation, ofField_eq_none h]

theorem nextImm_nil (w : Width) (n : Nat) : nextImm w ⟨[], n⟩ = .error (.outOfBounds n) := by cases w <;> rfl

/-- Every family asks for a second byte (R84). -/
theorem decode_singleton {b0 : Byte} (h : acceptedOpcode b0 = true) : decode [b0] = .error (.outOfBounds 1) := by
  obtain ⟨f, hf⟩ := Option.isSome_iff_exists.1 ((familyOf_isSome b0).trans h)
  have hstop : decodeFamily f b0 ⟨[], 1⟩ = .error (.outOfBounds 1) := by
    cases f with
    | movRegImm => rw [decodeFamily, nextImm_nil, error_bind]
    | aluAccImm k => rw [decodeFamily, nextImm_nil, error_bind]
    | _ => rfl
  rw [decode_cons hf, hstop, error_bind]

/-! ## A word operand at the top of memory (R44) -/

variable {s : State} {m : MemOp}

theorem readOp_top (h : s.ea m = 0xFFFF) : s.readOp .word (.mem m) = .error (outOfBoundsAt 0x10000) := by
  simp [State.readOp, memRead, h]

theorem writeOp_top (h : s.ea m = 0xFFFF) (v : Word) : s.writeOp .word (.mem m) v = .error (outOfBoundsAt 0x10000) := by
  simp [State.writeOp, memWrite, h]

theorem mov_from_top (h : s.ea m = 0xFFFF) (dst : Loc) : mov .word dst (.mem m) s = topFault s := by
  rw [mov, readOp_top h]
  rfl

theorem mov_to_top (h : s.ea m = 0xFFFF) {src : Loc} {v : Word} (hsrc : s.readOp .word src = .ok v) :
    mov .word (.mem m) src s = topFault s := by
  simp only [mov, hsrc, writeOp_top h]
  rfl

theorem alu_to_top (h : s.ea m = 0xFFFF) (k : AluKind) (src : Loc) : alu k .word (.mem m) src s = topFault s := by
  rw [alu, readOp_top h]
  rfl

theorem alu_from_top (h : s.ea m = 0xFFFF) (k : AluKind) (i : RegCode) :
    alu k .word (.reg i) (.mem m) s = topFault s := by
  rw [alu, readOp_top h]
  rfl

/-- An ALU operation between a register and the operand at the top, in either direction. -/
theorem alu_operands_top (h : s.ea m = 0xFFFF) (k : AluKind) (d : Dir) (reg : RegCode) :
    alu k .word (d.operands reg (.mem m)).1 (d.operands reg (.mem m)).2 s = topFault s := by
  cases d with
  | toRm => exact alu_to_top h k _
  | toReg => exact alu_from_top h k reg

end Sys2Proof.Machine
end

section
/-! The obligations of the step rule by rule (40_execution_cycle.md, 60_exceptions.md). -/

namespace Sys2Proof.Machine

open Sys2Proof.Claims

/-- Settles O7: `step_of_decode_ok`; the count is `State.complete`. -/
theorem stepRunsDecodedInstruction : Obligations.StepRunsDecodedInstruction := by
  intro s i len hrun hip hdec hlen
  rw [step_of_decode_ok hrun hip hdec hlen, State.advance]
  cases exec i _ with
  | next u =>
    by_cases hfaulted : u.status = .faulted
    · simp [retire, complete_of_faulted, hfaulted]
    · simp [retire, complete_of_not_faulted, hfaulted]
  | fault f => rfl
  | refused f => rfl

/-- Settles O8: the end-of-run check comes first. -/
theorem stepHaltsAtEndOfProgram : Obligations.StepHaltsAtEndOfProgram := by
  intro s hrun hend
  simp [step, State.fetchDecode, hrun, hend, State.halt]

/-- Settles O9: the two outcomes of a stopped block. -/
theorem stoppedBlockTakesNoStep : Obligations.StoppedBlockTakesNoStep := by
  intro s
  constructor <;> (intro hstatus; simp [step, State.fetchDecode, hstatus])

/-- Settles O16: the first byte fetched has no family. -/
theorem unrecognizedOpcodeFaults : Obligations.UnrecognizedOpcodeFaults := by
  intro s hrun hip hbad
  obtain ⟨rest, hbytes⟩ := fetchBytes_eq_cons s
  exact step_of_decode_error hrun hip (hbytes ▸ decode_cons_of_none (familyOf_eq_none hbad) rest)

/-- Settles O17: the second byte fetched names no operation. -/
theorem unsupportedOperationFaults : Obligations.UnsupportedOperationFaults := by
  intro s hrun hip hin hb0 hbad
  obtain ⟨rest, hbytes⟩ := fetchBytes_eq_cons_cons hin
  have hf : familyOf (s.mem.read s.ip.toNat) = some .aluRmImm := by rcases hb0 with h | h | h <;> rw [h] <;> rfl
  exact step_of_decode_error hrun hip (hbytes ▸ decode_of_unsupported hf hbad rest)

/-- Settles O18: the decoder runs out at the end of what is fetched, before the sixth byte, so that end is the end of memory. -/
theorem fetchPastMemoryFaults : Obligations.FetchPastMemoryFaults := by
  refine ⟨fun s k hrun hip hdec => ?runsOut, fun s hip hacc => ?atTop⟩
  case runsOut =>
    obtain ⟨hk, hlt⟩ := decode_runsOut hdec
    rw [length_fetchBytes] at hk
    have hsum : s.ip.toNat + k = 0x10000 := by omega
    refine ⟨hsum, ?_⟩
    rw [step_of_decode_error hrun hip hdec, State.raiseDecode, causeOfDecode, hsum]
    rfl
  case atTop =>
    obtain ⟨rest, hbytes⟩ := fetchBytes_eq_cons s
    have hlen := length_fetchBytes s
    rw [hbytes, hip] at hlen
    obtain rfl : rest = [] := List.length_eq_zero_iff.1 (Nat.succ.inj hlen)
    rw [hbytes, hip]
    exact decode_singleton hacc

/-- Settles O19: the instruction's last byte is inside memory, so an advance beyond it is to the first address outside. -/
theorem advancePastMemoryFaults : Obligations.AdvancePastMemoryFaults := by
  intro s i len hrun hip hdec hover
  have hlen := decodedLength_le hdec
  have hsum : s.ip.toNat + len = 0x10000 := by omega
  rw [step_of_advance_over hrun hip hdec hover, State.raiseAdvance, hsum]
  rfl

/-- Settles O20: the first access to the operand at the top is the fault, as source or as destination. -/
theorem wordAccessAtTopOfMemoryFaults : Obligations.WordAccessAtTopOfMemoryFaults := by
  intro s m d reg v i8 h
  have hdirect : s.ea (.direct 0xFFFF) = 0xFFFF := rfl
  simp only [exec_eq_runRecord, Instr.record, runRecord, RmOp.loc, Imm.width]
  refine ⟨?_, mov_to_top h rfl, mov_from_top hdirect _, mov_to_top hdirect rfl, alu_operands_top h .add d reg,
    alu_operands_top h .sub d reg, alu_operands_top h .cmp d reg, alu_to_top h .add _, alu_to_top h .add _,
    alu_to_top h .sub _, alu_to_top h .sub _, alu_to_top h .cmp _, alu_to_top h .cmp _⟩
  cases d with
  | toRm => exact mov_to_top h rfl
  | toReg => exact mov_from_top h _

end Sys2Proof.Machine
end

section
/-! SUPPORT. The frame of an execution (R114, R130, R150, R180): what `mov`, `alu` and the jumps keep, and which record an
instruction runs. -/

namespace Sys2Proof.Machine

open Sys2Proof.Claims

/-! ## Records -/

theorem record_eq_je {i : Instr} {d8 : Byte} (h : i.record = .je d8) : i = .je d8 := by
  cases i with
  | je v => cases h; rfl
  | _ => cases h

theorem record_eq_jne {i : Instr} {d8 : Byte} (h : i.record = .jne d8) : i = .jne d8 := by
  cases i with
  | jne v => cases h; rfl
  | _ => cases h

/-- Only an ADD, SUB or CMP row runs the ALU. -/
theorem writesFlags_of_record_op {i : Instr} {k : AluKind} {w : Width} {dst src : Loc}
    (h : i.record = .op k w dst src) : writesFlags i = true := by
  cases i with
  | movRmReg | movRegImm | movRmImm | movAccMem | movMemAcc | je | jne => cases h
  | _ => rfl

/-- An instruction with a destination runs a MOV or an ALU operation to it. -/
theorem record_of_writes_some {i : Instr} {w : Width} {d : RmOp} (h : writes i = some (w, d)) :
    ∃ src, i.record = .mov w d.loc src ∨ ∃ k, i.record = .op k w d.loc src := by
  cases i with
  | movRmReg dir => cases dir <;> cases h <;> exact ⟨_, .inl rfl⟩
  | movRegImm | movRmImm | movAccMem | movMemAcc => cases h; exact ⟨_, .inl rfl⟩
  | addRmReg dir | subRmReg dir => cases dir <;> cases h <;> exact ⟨_, .inr ⟨_, rfl⟩⟩
  | cmpRmReg | cmpRmImm80 | cmpRmImm81 | cmpRmImm83 | cmpAccImm | je | jne => cases h
  | _ => cases h; exact ⟨_, .inr ⟨_, rfl⟩⟩

/-- An instruction without a destination is a comparison or a jump. -/
theorem record_of_writes_none {i : Instr} (h : writes i = none) :
    (∃ w dst src, i.record = .op .cmp w dst src) ∨ (∃ d8, i.record = .je d8) ∨ ∃ d8, i.record = .jne d8 := by
  cases i with
  | cmpRmReg | cmpRmImm80 | cmpRmImm81 | cmpRmImm83 | cmpAccImm => exact .inl ⟨_, _, _, rfl⟩
  | je d8 => exact .inr (.inl ⟨d8, rfl⟩)
  | jne d8 => exact .inr (.inr ⟨d8, rfl⟩)
  | movRmReg dir | addRmReg dir | subRmReg dir => cases dir <;> cases h
  | _ => cases h

/-! ## Flags and `ip` -/

variable {s t : State} {w : Width} {dst src : Loc} {k : AluKind} {d8 : Byte}

theorem mov_keeps_flags_ip (h : mov w dst src s = .next t) : t.zf = s.zf ∧ t.sf = s.sf ∧ t.ip = s.ip := by
  rcases mov_cases w dst src s with ⟨c, hm, _⟩ | ⟨v, u, _, hw, hm⟩ <;> cases hm.symm.trans h
  · exact ⟨rfl, rfl, rfl⟩
  · rw [(State.writeOp_frame hw).1]
    exact ⟨rfl, rfl, rfl⟩

/-- The ALU answers the state it was given with a fault, or with flags set and then a fault or a destination written. -/
theorem alu_keeps_ip (h : alu k w dst src s = .next t) : t.ip = s.ip := by
  rcases alu_cases k w dst src s with ⟨c, hm, _⟩ | ⟨a, b, _, _, hm⟩ <;> rw [hm] at h
  · cases h; rfl
  · rcases aluWriteBack_cases k w dst (aluResult k w a b) (s.setZS w (aluResult k w a b)) with
      ⟨_, hb⟩ | ⟨_, c, _, hb⟩ | ⟨_, u, hw, hb⟩ <;> cases hb.symm.trans h
    · rfl
    · rfl
    · rw [(State.writeOp_frame hw).1]; rfl

/-- A jump inside memory goes to its target, as an integer (R180). -/
theorem toNat_ofInt_jumpTarget {ip : Word} (h0 : 0 ≤ jumpTarget ip d8) (h1 : jumpTarget ip d8 ≤ 0xFFFF) :
    ((BitVec.ofInt 16 (jumpTarget ip d8)).toNat : Int) = ip.toNat + d8.toInt := by
  rw [BitVec.toNat_ofInt]
  simp only [jumpTarget, signed8] at *
  omega

/-- A taken jump changes `ip` alone, or raises a fault. -/
theorem jump_keeps (h : jump d8 s = .next t) :
    t.regs = s.regs ∧ t.mem = s.mem ∧ t.zf = s.zf ∧ t.sf = s.sf ∧
      (t.ip = s.ip ∨ (t.ip.toNat : Int) = s.ip.toNat + d8.toInt) := by
  rcases jump_cases d8 s with ⟨h0, h1, hj⟩ | ⟨_, hj⟩ <;> cases hj.symm.trans h
  · exact ⟨rfl, rfl, rfl, rfl, .inr (toNat_ofInt_jumpTarget h0 h1)⟩
  · exact ⟨rfl, rfl, rfl, rfl, .inl rfl⟩

theorem execJe_of_clear (h : s.zf = false) (d8 : Byte) : execJe d8 s = .next s := by simp [execJe, h]
theorem execJe_of_set (h : s.zf = true) (d8 : Byte) : execJe d8 s = jump d8 s := by simp [execJe, h]
theorem execJne_of_set (h : s.zf = true) (d8 : Byte) : execJne d8 s = .next s := by simp [execJne, h]
theorem execJne_of_clear (h : s.zf = false) (d8 : Byte) : execJne d8 s = jump d8 s := by simp [execJne, h]

/-- JE, taken or not, keeps registers, memory and flags, and changes `ip` only when taken. -/
theorem execJe_keeps (h : execJe d8 s = .next t) :
    t.regs = s.regs ∧ t.mem = s.mem ∧ t.zf = s.zf ∧ t.sf = s.sf ∧
      (t.ip = s.ip ∨ s.zf = true ∧ (t.ip.toNat : Int) = s.ip.toNat + d8.toInt) := by
  cases hz : s.zf with
  | false =>
    cases (execJe_of_clear hz d8).symm.trans h
    exact ⟨rfl, rfl, hz, rfl, .inl rfl⟩
  | true =>
    rw [execJe_of_set hz] at h
    simpa [hz] using jump_keeps h

/-- JNE, taken or not, keeps registers, memory and flags, and changes `ip` only when taken. -/
theorem execJne_keeps (h : execJne d8 s = .next t) :
    t.regs = s.regs ∧ t.mem = s.mem ∧ t.zf = s.zf ∧ t.sf = s.sf ∧
      (t.ip = s.ip ∨ s.zf = false ∧ (t.ip.toNat : Int) = s.ip.toNat + d8.toInt) := by
  cases hz : s.zf with
  | false =>
    rw [execJne_of_clear hz] at h
    simpa [hz] using jump_keeps h
  | true =>
    cases (execJne_of_set hz d8).symm.trans h
    exact ⟨rfl, rfl, hz, rfl, .inl rfl⟩

/-- An execution changes `ip` only as a JE or a JNE whose condition holds, by its displacement. -/
theorem exec_ip {i : Instr} (h : exec i s = .next t) :
    t.ip = s.ip ∨ ∃ d8, (i = .je d8 ∧ s.zf = true ∨ i = .jne d8 ∧ s.zf = false) ∧
      (t.ip.toNat : Int) = s.ip.toNat + d8.toInt := by
  rw [exec_eq_runRecord] at h
  cases hr : i.record with
  | mov w dst src => rw [hr] at h; exact .inl (mov_keeps_flags_ip h).2.2
  | op k w dst src => rw [hr] at h; exact .inl (alu_keeps_ip h)
  | je d8 =>
    rw [hr] at h
    obtain ⟨-, -, -, -, hip | ⟨hz, hip⟩⟩ := execJe_keeps h
    · exact .inl hip
    · exact .inr ⟨d8, .inl ⟨record_eq_je hr, hz⟩, hip⟩
  | jne d8 =>
    rw [hr] at h
    obtain ⟨-, -, -, -, hip | ⟨hz, hip⟩⟩ := execJne_keeps h
    · exact .inl hip
    · exact .inr ⟨d8, .inr ⟨record_eq_jne hr, hz⟩, hip⟩

/-- An execution that does not run the ALU keeps both flags. -/
theorem exec_keeps_flags {i : Instr} (hi : writesFlags i = false) (h : exec i s = .next t) : t.zf = s.zf ∧ t.sf = s.sf := by
  rw [exec_eq_runRecord] at h
  cases hr : i.record with
  | mov w dst src =>
    rw [hr] at h
    obtain ⟨hzf, hsf, -⟩ := mov_keeps_flags_ip h
    exact ⟨hzf, hsf⟩
  | op k w dst src => cases hi.symm.trans (writesFlags_of_record_op hr)
  | je d8 =>
    rw [hr] at h
    obtain ⟨-, -, hzf, hsf, -⟩ := execJe_keeps h
    exact ⟨hzf, hsf⟩
  | jne d8 =>
    rw [hr] at h
    obtain ⟨-, -, hzf, hsf, -⟩ := execJne_keeps h
    exact ⟨hzf, hsf⟩

/-! ## Registers and memory outside the destination -/

theorem x_eq_of_regs_eq (h : t.regs = s.regs) (c : RegCode) : t.x c = s.x c := by rw [State.x, h, State.x]

theorem sameOutside_of_eq {d : RmOp} (hregs : t.regs = s.regs) (hmem : t.mem = s.mem) : SameOutside w d s t := by
  have hx := x_eq_of_regs_eq hregs
  cases d with
  | reg i =>
    refine ⟨fun a => by rw [hmem], ?_⟩
    cases w with
    | byte => exact ⟨fun c _ => hx c, fun b _ => by simp only [State.xb, hx]⟩
    | word => exact fun c _ => hx c
  | mem m => exact ⟨hx, fun a _ _ => by rw [hmem]⟩

/-- A completed operand write keeps everything outside the operand. -/
theorem sameOutside_writeOp {d : RmOp} {v : Word} (h : s.writeOp w d.loc v = .ok t) : SameOutside w d s t := by
  cases d with
  | reg i =>
    cases h
    exact sameOutside_writeReg s w i v
  | mem m =>
    rcases State.writeOp_ok_cases h with ⟨i, hi, _⟩ | ⟨m', mem, hm, hwrite, rfl⟩
    · cases hi
    · cases hm
      have hfits : FitsAt w (s.ea m) := by
        rintro rfl htop
        simp [memWrite, htop] at hwrite
      obtain ⟨mem', hwrite', hread⟩ := memWrite_ok s.mem hfits v
      cases hwrite'.symm.trans hwrite
      refine ⟨fun _ => rfl, fun a hlow hhigh => ?_⟩
      rw [hread, if_neg hlow, if_neg fun ⟨hw, ha⟩ => hhigh hw ha]

theorem sameOutside_mov {d : RmOp} (h : mov w d.loc src s = .next t) : SameOutside w d s t := by
  rcases mov_cases w d.loc src s with ⟨c, hm, _⟩ | ⟨v, u, _, hw, hm⟩ <;> cases hm.symm.trans h
  · exact sameOutside_of_eq rfl rfl
  · exact sameOutside_writeOp hw

/-- Flags are no part of what is outside the destination. -/
theorem sameOutside_setZS_iff {d : RmOp} {r : Word} : SameOutside w d (s.setZS w r) t ↔ SameOutside w d s t := by
  cases d <;> simp [SameOutside]

theorem sameOutside_alu {d : RmOp} (h : alu k w d.loc src s = .next t) : SameOutside w d s t := by
  rcases alu_cases k w d.loc src s with ⟨c, hm, _⟩ | ⟨a, b, _, _, hm⟩ <;> rw [hm] at h
  · cases h; exact sameOutside_of_eq rfl rfl
  · rcases aluWriteBack_cases k w d.loc (aluResult k w a b) (s.setZS w (aluResult k w a b)) with
      ⟨_, hb⟩ | ⟨_, c, _, hb⟩ | ⟨_, u, hw, hb⟩ <;> cases hb.symm.trans h
    · exact sameOutside_of_eq rfl rfl
    · exact sameOutside_of_eq rfl rfl
    · exact sameOutside_setZS_iff.1 (sameOutside_writeOp hw)

/-- CMP writes no register and no byte (R150). -/
theorem alu_cmp_keeps (h : alu .cmp w dst src s = .next t) : t.regs = s.regs ∧ t.mem = s.mem := by
  rcases alu_cases .cmp w dst src s with ⟨c, hm, _⟩ | ⟨a, b, _, _, hm⟩ <;> cases hm.symm.trans h <;> exact ⟨rfl, rfl⟩

/-- An instruction with a destination keeps everything outside it. -/
theorem exec_sameOutside {i : Instr} {d : RmOp} (hi : writes i = some (w, d)) (h : exec i s = .next t) :
    SameOutside w d s t := by
  rw [exec_eq_runRecord] at h
  obtain ⟨src, hr | ⟨k, hr⟩⟩ := record_of_writes_some hi <;> rw [hr] at h
  · exact sameOutside_mov h
  · exact sameOutside_alu h

/-- An instruction without a destination keeps every register and all of memory. -/
theorem exec_keeps_regs_mem {i : Instr} (hi : writes i = none) (h : exec i s = .next t) :
    t.regs = s.regs ∧ t.mem = s.mem := by
  rw [exec_eq_runRecord] at h
  obtain ⟨w, dst, src, hr⟩ | ⟨d8, hr⟩ | ⟨d8, hr⟩ := record_of_writes_none hi <;> rw [hr] at h
  · exact alu_cmp_keeps h
  · obtain ⟨hregs, hmem, -⟩ := execJe_keeps h
    exact ⟨hregs, hmem⟩
  · obtain ⟨hregs, hmem, -⟩ := execJne_keeps h
    exact ⟨hregs, hmem⟩

/-- An execution keeps `L`, `n` and the cursor, and `status` and the record too unless it raises a fault. -/
theorem exec_keeps_control {i : Instr} (h : exec i s = .next t) :
    t.progLen = s.progLen ∧ t.n = s.n ∧ t.pending = s.pending ∧
      (t.status = .faulted ∨ (t.status = s.status ∧ t.fault = s.fault)) := by
  rcases exec_cases i s with ⟨c, _, hraise⟩ | ⟨u, hnext, hframe, _⟩
  · cases hraise.symm.trans h
    exact ⟨rfl, rfl, rfl, .inl rfl⟩
  · obtain rfl : u = t := Host.Outcome.next.inj (hnext.symm.trans h)
    rw [hframe]
    exact ⟨rfl, rfl, rfl, .inr ⟨rfl, rfl⟩⟩

/-! ## Jumps taken and refused -/

/-- A jump inside memory changes `ip` alone. -/
theorem jump_inside (s : State) (d8 : Byte) (h0 : 0 ≤ (s.ip.toNat : Int) + d8.toInt)
    (h1 : (s.ip.toNat : Int) + d8.toInt ≤ 0xFFFF) :
    ∃ t, jump d8 s = .next t ∧ (t.ip.toNat : Int) = (s.ip.toNat : Int) + d8.toInt ∧ t = { s with ip := t.ip } :=
  ⟨_, if_pos ⟨h0, h1⟩, toNat_ofInt_jumpTarget h0 h1, rfl⟩

/-- A jump outside memory faults with its target as the address (D4). -/
theorem jump_outside (s : State) (d8 : Byte)
    (h : (s.ip.toNat : Int) + d8.toInt < 0 ∨ 0xFFFF < (s.ip.toNat : Int) + d8.toInt) :
    jump d8 s = .next (faultedFrom s .outOfBounds 2 (.address ((s.ip.toNat : Int) + d8.toInt))) := by
  have hnot : ¬ (0 ≤ jumpTarget s.ip d8 ∧ jumpTarget s.ip d8 ≤ 0xFFFF) := by
    simp only [jumpTarget, signed8]; omega
  exact if_neg hnot

end Sys2Proof.Machine
end

section
/-! The obligations of the frame and of the jumps (40_execution_cycle.md, 43_branch.md). -/

namespace Sys2Proof.Machine

open Sys2Proof.Claims

/-- Settles O13: a step moves `ip` by the advance, and `exec_ip` says what execution adds. -/
theorem instructionPointerChangesOnlyByAdvanceAndJump : Obligations.InstructionPointerChangesOnlyByAdvanceAndJump := by
  intro s t h
  obtain ⟨-, hans⟩ := stepAnswer_of_step h
  cases hans with
  | halted hend => exact .inl ⟨rfl, nofun⟩
  | decodeFault hdec => exact .inl ⟨rfl, nofun⟩
  | advanceFault hdec hover => exact .inl ⟨rfl, nofun⟩
  | execFault hdec hlen hkind => exact .inr ⟨_, _, hdec, .inl (toNat_advance_ip hlen)⟩
  | @completed i len u hdec hlen hexec hframe hmem =>
    refine .inr ⟨i, len, hdec, ?_⟩
    obtain hip | ⟨d8, hcond, hip⟩ := exec_ip hexec
    · exact .inl ((congrArg BitVec.toNat hip).trans (toNat_advance_ip hlen))
    · exact .inr ⟨d8, hcond, by rwa [toNat_advance_ip hlen] at hip⟩

/-- Settles O35: the condition selects the jump, `jump_inside` and `jump_outside` say what it does. -/
theorem jeEffect : Obligations.JeEffect := by
  intro s d8
  have taken (hz : s.zf = true) : exec (.je d8) s = jump d8 s := execJe_of_set hz d8
  exact ⟨fun hz => execJe_of_clear hz d8, fun hz => taken hz ▸ jump_inside s d8, fun hz => taken hz ▸ jump_outside s d8⟩

/-- Settles O36: as O35, with the other condition. -/
theorem jneEffect : Obligations.JneEffect := by
  intro s d8
  have taken (hz : s.zf = false) : exec (.jne d8) s = jump d8 s := execJne_of_clear hz d8
  exact ⟨fun hz => execJne_of_set hz d8, fun hz => taken hz ▸ jump_inside s d8, fun hz => taken hz ▸ jump_outside s d8⟩

/-- Settles O37: `exec_keeps_control`, and by the destination `exec_sameOutside` or `exec_keeps_regs_mem`. -/
theorem instructionFrames : Obligations.InstructionFrames := by
  intro i s t h
  obtain ⟨hL, hn, hpending, hstatus⟩ := exec_keeps_control h
  refine ⟨hL, hn, hpending, hstatus, ?_⟩
  cases hw : writes i with
  | some p => exact exec_sameOutside hw h
  | none =>
    obtain ⟨hregs, hmem⟩ := exec_keeps_regs_mem hw h
    exact ⟨x_eq_of_regs_eq hregs, fun a => by rw [hmem]⟩

/-- Settles O38: `exec_keeps_flags` and `exec_ip`. -/
theorem flagsChangeOnlyByArithmetic : Obligations.FlagsChangeOnlyByArithmetic := by
  intro i s t h
  refine ⟨fun hi => exec_keeps_flags hi h, fun hi => ?_⟩
  obtain hip | ⟨d8, ⟨hje, _⟩ | ⟨hjne, _⟩, _⟩ := exec_ip h
  · exact hip
  · exact absurd hje (hi d8).1
  · exact absurd hjne (hi d8).2

end Sys2Proof.Machine
end

section
/-! SUPPORT. The ALU on unsigned integers (R150): its result, its flags, and what it leaves. -/

namespace Sys2Proof.Machine

open Sys2Proof.Claims

/-- The ALU's result is the statements' arithmetic modulo `2^W`. -/
theorem toNat_aluResult (k : AluKind) {w : Width} {a b : Word} (ha : a.toNat < 2 ^ w.bits) (hb : b.toNat < 2 ^ w.bits) :
    (aluResult k w a b).toNat = aluNat k w a.toNat b.toNat := by
  have hadd : (w.trunc (a + b)).toNat = (a.toNat + b.toNat) % 2 ^ w.bits := by
    cases w <;> simp [Width.trunc, Width.bits, toNat_lowByte, BitVec.toNat_add]
  have hsub : (w.trunc (a - b)).toNat = (a.toNat + 2 ^ w.bits - b.toNat) % 2 ^ w.bits := by
    cases w <;> simp only [Width.trunc, Width.bits, toNat_zext16, toNat_lowByte, BitVec.toNat_sub] at * <;> omega
  cases k with
  | add => exact hadd
  | sub => exact hsub
  | cmp => exact hsub

theorem aluNat_lt (k : AluKind) (w : Width) (a b : Nat) : aluNat k w a b < 2 ^ w.bits := by
  cases k <;> exact Nat.mod_lt _ (Nat.two_pow_pos _)

/-- The two flags that an ALU result sets, on unsigned integers (R115). -/
theorem setZS_flags (s : State) {w : Width} {r : Word} {v : Nat} (hr : r.toNat = v) (hv : v < 2 ^ w.bits) :
    (s.setZS w r).zf = decide (v = 0) ∧ (s.setZS w r).sf = decide (2 ^ (w.bits - 1) ≤ v) := by
  subst hr
  obtain ⟨hzf, hsf, -⟩ := flagsOfResult s w r hv
  exact ⟨Bool.eq_iff_iff.2 (by rw [hzf, decide_eq_true_iff]), Bool.eq_iff_iff.2 (by rw [hsf, decide_eq_true_iff])⟩

/-- Flags never decide whether an operand lies inside memory. -/
theorem inside_setZS {s : State} {w : Width} {d : RmOp} (h : Inside s w d) (w' : Width) (r : Word) :
    Inside (s.setZS w' r) w d := by
  cases d with
  | reg i => trivial
  | mem m => simpa [Inside] using h

/-- A byte operand lies inside memory wherever it is. -/
theorem inside_byte (s : State) (d : RmOp) : Inside s .byte d := by
  cases d with
  | reg i => trivial
  | mem m => exact nofun

theorem aluWriteBack_of_ok {k : AluKind} {w : Width} {dst : Loc} {r : Word} {s t : State} (hk : k ≠ .cmp)
    (h : s.writeOp w dst r = .ok t) : aluWriteBack k w dst r s = .next t := by
  cases k with
  | cmp => exact absurd rfl hk
  | add | sub => simp [aluWriteBack, h]

/-- ADD and SUB end in the result at the destination, CMP in the state it was given; flags and control state as given. -/
theorem aluWriteBack_effect (k : AluKind) {s : State} {w : Width} {d : RmOp} {r : Word} (hd : Inside s w d)
    (hr : r.toNat < 2 ^ w.bits) :
    ∃ t, aluWriteBack k w d.loc r s = .next t ∧ t.zf = s.zf ∧ t.sf = s.sf ∧ SameControl s t ∧
      if k = .cmp then t = s else operandNat t w d = r.toNat ∧ SameOutside w d s t := by
  by_cases hk : k = .cmp
  · subst hk
    exact ⟨s, rfl, rfl, rfl, ⟨rfl, rfl, rfl, rfl, rfl, rfl⟩, rfl⟩
  · obtain ⟨t, hwrite, hvalue, hframe⟩ := State.writeOp_loc hd hr
    obtain ⟨ht, -⟩ := State.writeOp_frame hwrite
    refine ⟨t, aluWriteBack_of_ok hk hwrite, by rw [ht], by rw [ht], by rw [ht]; exact ⟨rfl, rfl, rfl, rfl, rfl, rfl⟩, ?_⟩
    rw [if_neg hk]
    exact ⟨hvalue, hframe⟩

/-- The ALU with any source that answers a `W`-bit value, and a destination inside memory. -/
theorem aluEffect_alu (k : AluKind) {s : State} {w : Width} {d : RmOp} {src : Loc} {v : Word} (hd : Inside s w d)
    (hsrc : s.readOp w src = .ok v) (hv : v.toNat < 2 ^ w.bits) : AluEffect k w d v.toNat s (alu k w d.loc src s) := by
  obtain ⟨a, hread, ha⟩ := State.readOp_loc hd
  have hres := toNat_aluResult k (ha ▸ operandNat_lt s w d) hv
  rw [ha] at hres
  have hlt := aluNat_lt k w (operandNat s w d) v.toNat
  have halu : alu k w d.loc src s = aluWriteBack k w d.loc (aluResult k w a v) (s.setZS w (aluResult k w a v)) := by
    simp [alu, hread, hsrc]
  obtain ⟨hzf, hsf⟩ := setZS_flags s hres hlt
  obtain ⟨t, hback, htzf, htsf, hcontrol, hdest⟩ := aluWriteBack_effect k (inside_setZS hd w _) (hres ▸ hlt)
  refine ⟨t, halu.trans hback, htzf.trans hzf, htsf.trans hsf, hcontrol, ?_⟩
  rw [hres, sameOutside_setZS_iff] at hdest
  cases k with
  | add => exact hdest
  | sub => exact hdest
  | cmp =>
    obtain rfl : t = s.setZS w _ := hdest
    exact ⟨fun _ => rfl, fun _ => rfl⟩

/-- The ALU between operands inside memory (R153 to R155). -/
theorem aluEffect_operand (k : AluKind) {s : State} {w : Width} {d src : RmOp} (hd : Inside s w d)
    (hsrc : Inside s w src) : AluEffect k w d (operandNat s w src) s (alu k w d.loc src.loc s) := by
  obtain ⟨v, hread, hv⟩ := State.readOp_loc hsrc
  rw [← hv]
  exact aluEffect_alu k hd hread (hv ▸ operandNat_lt s w src)

/-- The ALU with an immediate of the operation's width (R156 to R161). -/
theorem aluEffect_imm (k : AluKind) {s : State} {w : Width} {d : RmOp} {v : Word} {b : Nat} (hd : Inside s w d)
    (hv : v.toNat = b) (hb : b < 2 ^ w.bits) : AluEffect k w d b s (alu k w d.loc (.imm v) s) := by
  subst hv
  exact aluEffect_alu k hd rfl hb

/-- Sign extension of an encoded byte as an unsigned integer (R9, R70). -/
theorem toNat_sext16 (v : Byte) : (sext16 v).toNat = sextNat v := by
  revert v; decide

theorem sextNat_lt (v : Byte) : sextNat v < 2 ^ Width.word.bits := toNat_sext16 v ▸ (sext16 v).isLt

/-! ## Effective addresses on integers (R112) -/

/-- A word is its signed value modulo 2^16. -/
theorem toNat_eq_toInt_emod (v : Word) : (v.toNat : Int) = v.toInt % 65536 := by
  have hlt := v.isLt
  rw [BitVec.toInt_eq_toNat_cond]
  omega

theorem toNat_disp_value (d : Disp) : ((Disp.value d).toNat : Int) = dispInt d % 65536 := by
  cases d with
  | none => rfl
  | d8 v =>
    rw [toNat_eq_toInt_emod, Disp.value, sext16, BitVec.toInt_signExtend_of_le (by decide)]
    rfl
  | d16 v => exact toNat_eq_toInt_emod v

theorem toNat_base (s : State) (mode : EaMode) : (s.base mode).toNat = baseNat s mode % 65536 := by
  cases mode with
  | bxSi | bxDi | bpSi | bpDi => exact BitVec.toNat_add _ _
  | si | di | bp | bx => exact (Nat.mod_eq_of_lt (BitVec.isLt _)).symm

/-! ## A stored accumulator (R42, R43) -/

/-- A memory operand that holds the accumulator's value has `al` at its address and, as a word, `ah` at the next. -/
theorem read_of_operandNat_eq_acc {s t : State} {w : Width} {addr : Word}
    (h : operandNat t w (.mem (.direct addr)) = operandNat s w (.reg 0)) :
    t.mem.read addr.toNat = s.xb 0 ∧ (w = .word → t.mem.read (addr.toNat + 1) = s.xb 4) := by
  cases w with
  | byte => exact ⟨BitVec.eq_of_toNat_eq h, nofun⟩
  | word =>
    have hsum : (t.mem.read addr.toNat).toNat + 256 * (t.mem.read (addr.toNat + 1)).toNat = (s.x 0).toNat := h
    have hlow := (t.mem.read addr.toNat).isLt
    have hal : s.xb 0 = lowByte (s.x 0) := rfl
    have hah : s.xb 4 = highByte (s.x 0) := rfl
    refine ⟨BitVec.eq_of_toNat_eq ?_, fun _ => BitVec.eq_of_toNat_eq ?_⟩
    · rw [hal, toNat_lowByte]; omega
    · rw [hah, toNat_highByte]; omega

/-- MOV [addr], acc inside memory leaves the accumulator's value at the address, and the control state. -/
theorem exec_movMemAcc {s : State} {w : Width} {addr : Word} (h : w = .word → addr ≠ 0xFFFF) :
    ∃ t, exec (.movMemAcc w addr) s = .next t ∧ operandNat t w (.mem (.direct addr)) = operandNat s w (.reg 0) ∧
      SameControl s t := by
  obtain ⟨t, hexec, hvalue, -, -, hcontrol, -⟩ :=
    movEffect_mov_operand (s := s) (w := w) (d := .mem (.direct addr)) (src := .reg 0) h trivial
  exact ⟨t, hexec, hvalue, hcontrol⟩

end Sys2Proof.Machine
end

section
/-! The obligations of arithmetic, of addresses and of stores (40_execution_cycle.md, 42_arithmetic.md, 20_memory.md). -/

namespace Sys2Proof.Machine

open Sys2Proof.Claims

/-- Settles O31: each row is the ALU between two operands, and a register operand is inside memory. -/
theorem aluRegisterMemoryEffect : Obligations.AluRegisterMemoryEffect := by
  intro s w reg rm hrm
  have hreg : Inside s w (.reg reg) := trivial
  exact ⟨aluEffect_operand .add hreg hrm, aluEffect_operand .add hrm hreg, aluEffect_operand .sub hreg hrm,
    aluEffect_operand .sub hrm hreg, aluEffect_operand .cmp hreg hrm, aluEffect_operand .cmp hrm hreg⟩

/-- Settles O32: the `80` rows take the byte as it is, the `81` rows a word, the `83` rows the byte sign-extended. -/
theorem aluImmediateEffect : Obligations.AluImmediateEffect := by
  intro s rm i8 i16
  have row80 (k : AluKind) : AluEffect k .byte rm i8.toNat s (alu k .byte rm.loc (.imm (zext16 i8)) s) :=
    aluEffect_imm k (inside_byte s rm) (toNat_zext16 i8) i8.isLt
  refine ⟨row80 .add, row80 .sub, row80 .cmp, fun hrm => ?_⟩
  have row81 (k : AluKind) : AluEffect k .word rm i16.toNat s (alu k .word rm.loc (.imm i16) s) :=
    aluEffect_imm k hrm rfl i16.isLt
  have row83 (k : AluKind) : AluEffect k .word rm (sextNat i8) s (alu k .word rm.loc (.imm (sext16 i8)) s) :=
    aluEffect_imm k hrm (toNat_sext16 i8) (sextNat_lt i8)
  exact ⟨row81 .add, row81 .sub, row81 .cmp, row83 .add, row83 .sub, row83 .cmp⟩

/-- Settles O33: the accumulator is a register operand, the immediate has the operation's width. -/
theorem aluAccumulatorImmediateEffect : Obligations.AluAccumulatorImmediateEffect := by
  intro s imm
  have row (k : AluKind) : AluEffect k imm.width (.reg 0) (immNat imm) s (alu k imm.width (.reg 0) (.imm imm.value) s) :=
    aluEffect_imm k (d := .reg 0) trivial (toNat_imm_value imm) (immNat_lt imm)
  exact ⟨row .add, row .sub, row .cmp⟩

/-- Settles O43: base and displacement as integers, each modulo 2^16, and the wrapping sum of the two. -/
theorem effectiveAddressSum : Obligations.EffectiveAddressSum := by
  intro s mode d a
  refine ⟨rfl, ?_⟩
  have hdisp := toNat_disp_value d
  have hbase := toNat_base s mode
  rw [State.ea, BitVec.toNat_add]
  omega

/-- Settles O44: the store leaves the accumulator's value at the address, and a load reads memory alone. -/
theorem storeThenLoadReturnsValue : Obligations.StoreThenLoadReturnsValue := by
  intro s w addr haddr
  obtain ⟨t, hexec, hvalue, -⟩ := exec_movMemAcc (s := s) haddr
  obtain ⟨hlow, hhigh⟩ := read_of_operandNat_eq_acc hvalue
  refine ⟨t, hexec, hlow, hhigh, fun q hq => ?_⟩
  obtain ⟨u, hload, hacc, -⟩ :=
    movEffect_mov_operand (s := q) (w := w) (d := .reg 0) (src := .mem (.direct addr)) trivial haddr
  have hsame : operandNat q w (.mem (.direct addr)) = operandNat t w (.mem (.direct addr)) := by
    simp only [operandNat, hq]
    rfl
  exact ⟨u, hload, hacc.trans (hsame.trans hvalue)⟩

/-- Settles O45: the store keeps `ip`, and what is fetched from `ip` is read from memory. -/
theorem storeThenFetchSeesNewByte : Obligations.StoreThenFetchSeesNewByte := by
  intro s addr k hk haddr
  obtain ⟨t, hexec, hvalue, hip, -⟩ := exec_movMemAcc (s := s) (w := .byte) (addr := addr) nofun
  obtain ⟨hlow, -⟩ := read_of_operandNat_eq_acc hvalue
  have hlt := addr.isLt
  refine ⟨t, hexec, ?_⟩
  rw [fetchBytes_getElem? hk (by rw [hip]; omega), hip, ← haddr, hlow]

end Sys2Proof.Machine
end

section
/-! SUPPORT. What no program reads: `sf`, and the counter `n` with the ordinal that a fault record reports (R26, R32, R204). -/

namespace Sys2Proof.Machine

/-- The state with other values where no program looks: `b` for `sf`, `m` for `n` and for the ordinal of the record of a faulted
block. -/
def State.withUnread (s : State) (b : Bool) (m : Nat) : State :=
  { s with
    sf := b
    n := m
    fault := if s.status = .faulted then s.fault.map (fun r => { r with ordinal := m }) else s.fault }

theorem State.withUnread_of_not_faulted {s : State} (h : s.status ≠ .faulted) (b : Bool) (m : Nat) :
    s.withUnread b m = { s with sf := b, n := m } := by
  rw [State.withUnread, if_neg h]

section
variable (s : State) (b : Bool) (m : Nat)

@[simp] theorem State.withUnread_mem : (s.withUnread b m).mem = s.mem := rfl

@[simp] theorem State.withUnread_ea (o : MemOp) : (s.withUnread b m).ea o = s.ea o := by
  cases o with
  | direct a => rfl
  | ea mode d => cases mode <;> rfl

@[simp] theorem State.withUnread_readOp (w : Width) (l : Loc) : (s.withUnread b m).readOp w l = s.readOp w l := by
  cases l with
  | reg i => cases w <;> rfl
  | imm v => rfl
  | mem o => simp [State.readOp]

/-- Raising a fault reports the counter that the state has. -/
theorem State.withUnread_raise (c : Cause) : (s.withUnread b m).raise c = (s.raise c).withUnread b m := rfl

theorem State.withUnread_setZS (w : Width) (r : Word) :
    (s.withUnread b m).setZS w r = (s.setZS w r).withUnread (w.msb r) m := rfl

theorem State.withUnread_advance (len : Nat) : (s.withUnread b m).advance len = (s.advance len).withUnread b m := rfl

theorem State.withUnread_writeReg (w : Width) (i : RegCode) (v : Word) :
    (s.withUnread b m).writeReg w i v = (s.writeReg w i v).withUnread b m := by
  cases w with
  | byte => simp only [State.writeReg, State.setXb]; split <;> rfl
  | word => rfl

end

/-- An operand write of the same value: the same outcome, with the other values where no program looks. -/
theorem State.withUnread_writeOp (s : State) (b : Bool) (m : Nat) (w : Width) (l : Loc) (v : Word) :
    (s.withUnread b m).writeOp w l v = (s.writeOp w l v).map (·.withUnread b m) := by
  cases l with
  | reg i => exact congrArg Except.ok (s.withUnread_writeReg b m w i v)
  | imm u => rfl
  | mem o =>
    simp only [State.writeOp, State.withUnread_ea, State.withUnread_mem]
    cases memWrite s.mem w (s.ea o) v <;> rfl

/-- `f` reads neither `sf` nor `n`: with other values there it answers the same state but for them; and it answers with the `sf`
it would have answered when it was given its own. -/
def IgnoresUnread (f : State → Result) : Prop :=
  ∀ (s t : State) (b : Bool) (m : Nat), f s = .next t →
    ∃ b', (b = s.sf → b' = t.sf) ∧ f (s.withUnread b m) = .next (t.withUnread b' m)

theorem ignoresUnread_next : IgnoresUnread .next := by
  intro s t b m h
  cases h
  exact ⟨b, id, rfl⟩

theorem ignoresUnread_raise (c : Cause) : IgnoresUnread fun s => .next (s.raise c) := by
  intro s t b m h
  cases h
  exact ⟨b, id, congrArg _ (s.withUnread_raise b m c)⟩

theorem aluWriteBack_of_error {k : AluKind} {w : Width} {dst : Loc} {r : Word} {s : State} {c : Cause} (hk : k ≠ .cmp)
    (h : s.writeOp w dst r = .error c) : aluWriteBack k w dst r s = .next (s.raise c) := by
  cases k with
  | cmp => exact absurd rfl hk
  | add | sub => simp [aluWriteBack, h]

/-- A write-back answers a fault or the written state; the write keeps `sf`. -/
theorem ignoresUnread_aluWriteBack (k : AluKind) (w : Width) (dst : Loc) (r : Word) :
    IgnoresUnread (aluWriteBack k w dst r) := by
  intro s t b m h
  by_cases hk : k = .cmp
  · subst hk
    exact ignoresUnread_next s t b m h
  · have hwrite := s.withUnread_writeOp b m w dst r
    cases hw : s.writeOp w dst r with
    | error c =>
      rw [hw] at hwrite
      rw [aluWriteBack_of_error hk hw] at h
      rw [aluWriteBack_of_error hk hwrite]
      exact ignoresUnread_raise c s t b m h
    | ok u =>
      rw [hw] at hwrite
      cases (aluWriteBack_of_ok hk hw).symm.trans h
      exact ⟨b, fun hb => by rw [(State.writeOp_frame hw).1, hb], aluWriteBack_of_ok hk hwrite⟩

/-- A MOV whose source is read ends in the same write-back as an ADD. -/
theorem mov_eq_aluWriteBack {s : State} {w : Width} {src : Loc} {v : Word} (h : s.readOp w src = .ok v) (dst : Loc) :
    mov w dst src s = aluWriteBack .add w dst v s := by
  cases hw : s.writeOp w dst v with
  | error c => simp only [mov, h, aluWriteBack, hw]
  | ok t => simp only [mov, h, aluWriteBack, hw]

theorem ignoresUnread_mov (w : Width) (dst src : Loc) : IgnoresUnread (mov w dst src) := by
  intro s t b m h
  have hread := s.withUnread_readOp b m w src
  cases hr : s.readOp w src with
  | error c =>
    have hmov {q : State} (hq : q.readOp w src = .error c) : mov w dst src q = .next (q.raise c) := by simp [mov, hq]
    rw [hmov hr] at h
    rw [hmov (hread.trans hr)]
    exact ignoresUnread_raise c s t b m h
  | ok v =>
    rw [mov_eq_aluWriteBack hr] at h
    rw [mov_eq_aluWriteBack (hread.trans hr)]
    exact ignoresUnread_aluWriteBack .add w dst v s t b m h

/-- The ALU writes `sf` before its write-back, so from there on the two runs have the same one. -/
theorem ignoresUnread_alu (k : AluKind) (w : Width) (dst src : Loc) : IgnoresUnread (alu k w dst src) := by
  intro s t b m h
  cases hd : s.readOp w dst with
  | error c =>
    simp only [alu, hd] at h
    simp only [alu, State.withUnread_readOp, hd]
    exact ignoresUnread_raise c s t b m h
  | ok x =>
    cases hs : s.readOp w src with
    | error c =>
      simp only [alu, hd, hs] at h
      simp only [alu, State.withUnread_readOp, hd, hs]
      exact ignoresUnread_raise c s t b m h
    | ok y =>
      simp only [alu, hd, hs] at h
      simp only [alu, State.withUnread_readOp, hd, hs, State.withUnread_setZS]
      obtain ⟨b', hsf, hback⟩ := ignoresUnread_aluWriteBack k w dst _ _ t _ m h
      exact ⟨b', fun _ => hsf rfl, hback⟩

theorem ignoresUnread_jump (d8 : Byte) : IgnoresUnread (jump d8) := by
  intro s t b m h
  by_cases hin : 0 ≤ jumpTarget s.ip d8 ∧ jumpTarget s.ip d8 ≤ 0xFFFF
  · cases (if_pos hin).symm.trans h
    exact ⟨b, id, if_pos hin⟩
  · cases (if_neg hin).symm.trans h
    exact ⟨b, id, if_neg hin⟩

theorem ignoresUnread_execJe (d8 : Byte) : IgnoresUnread (execJe d8) := by
  intro s t b m h
  cases hz : s.zf with
  | false =>
    rw [execJe_of_clear hz] at h
    rw [execJe_of_clear (s := s.withUnread b m) hz]
    exact ignoresUnread_next s t b m h
  | true =>
    rw [execJe_of_set hz] at h
    rw [execJe_of_set (s := s.withUnread b m) hz]
    exact ignoresUnread_jump d8 s t b m h

theorem ignoresUnread_execJne (d8 : Byte) : IgnoresUnread (execJne d8) := by
  intro s t b m h
  cases hz : s.zf with
  | false =>
    rw [execJne_of_clear hz] at h
    rw [execJne_of_clear (s := s.withUnread b m) hz]
    exact ignoresUnread_jump d8 s t b m h
  | true =>
    rw [execJne_of_set hz] at h
    rw [execJne_of_set (s := s.withUnread b m) hz]
    exact ignoresUnread_next s t b m h

/-- No instruction reads `sf` or `n`. -/
theorem ignoresUnread_exec (i : Instr) : IgnoresUnread (exec i) := by
  have hrun : exec i = runRecord i.record := funext (exec_eq_runRecord i)
  rw [hrun]
  cases i.record with
  | mov w dst src => exact ignoresUnread_mov w dst src
  | op k w dst src => exact ignoresUnread_alu k w dst src
  | je d8 => exact ignoresUnread_execJe d8
  | jne d8 => exact ignoresUnread_execJne d8

/-- What a step from `s` to `t` answers when the counter begins at `m`: what it counted, counted from there. -/
def State.recounted (t s : State) (b : Bool) (m : Nat) : State := { t.withUnread b m with n := m + (t.n - s.n) }

theorem State.recounted_of_n_eq {s t : State} (h : t.n = s.n) (b : Bool) (m : Nat) :
    t.recounted s b m = t.withUnread b m := by
  rw [State.recounted, h, Nat.sub_self]
  rfl

theorem complete_withUnread {s u : State} (hn : u.n = s.n) (b : Bool) (m : Nat) :
    (u.withUnread b m).complete = u.complete.recounted s b m := by
  by_cases hf : u.status = .faulted
  · rw [complete_of_faulted hf, complete_of_faulted (s := u.withUnread b m) hf, State.recounted_of_n_eq hn]
  · rw [complete_of_not_faulted hf, complete_of_not_faulted (s := u.withUnread b m) hf, State.recounted, hn,
      Nat.add_sub_cancel_left]
    rfl

/-- No step reads `sf` or `n`. -/
theorem step_withUnread {s t : State} (h : step s = .next t) (b : Bool) (m : Nat) :
    ∃ b', (b = s.sf → b' = t.sf) ∧ step (s.withUnread b m) = .next (t.recounted s b' m) := by
  rcases step_cases s with ⟨_, hs⟩ | ⟨_, hs⟩ | ⟨hrun, hend, hs⟩ | ⟨hrun, hip, e, hdec, hs⟩ |
    ⟨hrun, hip, i, len, hdec, hover, hs⟩ | ⟨hrun, hip, i, len, hdec, hlen, hs⟩ <;> rw [hs] at h
  · cases h
  · cases h
  · cases h
    refine ⟨b, id, ?_⟩
    rw [stepHaltsAtEndOfProgram (s.withUnread b m) hrun hend,
      State.recounted_of_n_eq (s := s) (t := s.halt) rfl, State.withUnread, hrun]
    rfl
  · cases h
    refine ⟨b, id, ?_⟩
    rw [step_of_decode_error (s := s.withUnread b m) hrun hip hdec,
      State.recounted_of_n_eq (s := s) (t := s.raiseDecode e) rfl]
    rfl
  · cases h
    refine ⟨b, id, ?_⟩
    rw [step_of_advance_over (s := s.withUnread b m) hrun hip hdec hover,
      State.recounted_of_n_eq (s := s) (t := s.raiseAdvance len) rfl]
    rfl
  · obtain ⟨u, hexec, rfl⟩ := retire_eq_next_iff.1 h
    obtain ⟨b', hsf, hexec'⟩ := ignoresUnread_exec i _ u b m hexec
    obtain ⟨-, hn, -⟩ := exec_keeps_control hexec
    refine ⟨b', fun hb => (hsf hb).trans (State.complete_sf u).symm, ?_⟩
    rw [step_of_decode_ok (s := s.withUnread b m) hrun hip hdec hlen, State.withUnread_advance, hexec', retire,
      complete_withUnread (s := s) hn]

end Sys2Proof.Machine
end

section
/-! The obligations of what no program reads (10_state.md section 4, 60_exceptions.md section 6). -/

namespace Sys2Proof.Machine

/-- Settles O40: a step from a running state, which is `withUnread` in `n` alone. -/
theorem ordinalIsNeverRead : Obligations.OrdinalIsNeverRead := by
  intro s t m h
  obtain ⟨hrun, -⟩ := stepAnswer_of_step h
  obtain ⟨b, hsf, hstep⟩ := step_withUnread h s.sf m
  rw [State.withUnread_of_not_faulted (by simp [hrun]), hsf rfl] at hstep
  exact hstep

/-- Settles O39: the step with the other `sf` and the step with its own, which is the step itself, agree outside `sf`. -/
theorem signFlagIsNeverRead : Obligations.SignFlagIsNeverRead := by
  intro s t b h
  obtain ⟨hrun, -⟩ := stepAnswer_of_step h
  have hnot : s.status ≠ .faulted := by simp [hrun]
  obtain ⟨c, hsf, hown⟩ := step_withUnread h s.sf s.n
  obtain ⟨b', -, hother⟩ := step_withUnread h b s.n
  rw [State.withUnread_of_not_faulted hnot, hsf rfl] at hown
  rw [State.withUnread_of_not_faulted hnot] at hother
  exact ⟨_, hother, (Host.Outcome.next.inj (h.symm.trans hown)).symm⟩

end Sys2Proof.Machine
end

section
/-! SUPPORT. A loaded image as memory (R50, R220). -/

namespace Sys2Proof.Machine

/-- The cells of an image hold its bytes from its first address on, and 0 elsewhere. -/
theorem read_imageCells (image : List Byte) :
    ∀ a b, (imageCells a image).read b = if a ≤ b then image.getD (b - a) 0 else 0 := by
  induction image with
  | nil => intro a b; simp [imageCells]
  | cons v image ih =>
    intro a b
    have hcell : (imageCells a (v :: image)).read b = if b = a then v else (imageCells (a + 1) image).read b := by
      by_cases hv : v = 0
      · subst hv
        by_cases hb : b = a
        · simp [imageCells, ih, hb]
        · simp [imageCells, hb]
      · simp only [imageCells, if_neg hv, Memory.read_cons]
    rw [hcell, ih]
    obtain hlt | rfl | hgt := Nat.lt_trichotomy b a
    · rw [if_neg (by omega), if_neg (by omega), if_neg (by omega)]
    · simp
    · obtain ⟨k, rfl⟩ := Nat.exists_eq_add_of_lt hgt
      have hsub : a + k + 1 - a = k + 1 := by omega
      have hsub' : a + k + 1 - (a + 1) = k := by omega
      rw [if_neg (by omega), if_pos (by omega), if_pos (by omega), hsub, hsub', List.getD_cons_succ]

/-- The cells of an image that fits are in canonical form. -/
theorem wfFrom_imageCells (image : List Byte) :
    ∀ a, a + image.length ≤ Config.memSize → (imageCells a image).wfFrom a = true := by
  induction image with
  | nil => intro a _; rfl
  | cons v image ih =>
    intro a ha
    rw [List.length_cons] at ha
    have hrest := ih (a + 1) (by omega)
    by_cases hv : v = 0
    · simpa only [imageCells, if_pos hv] using Memory.wfFrom_mono (Nat.le_succ a) hrest
    · simpa only [imageCells, if_neg hv] using (Memory.wfFrom_cons a a v _).2 ⟨le_rfl, by omega, hv, hrest⟩

theorem load_of_le {image : List Byte} (h : image.length ≤ 65536) :
    State.load image = some { State.reset with mem := imageCells 0 image, progLen := image.length } := if_pos h

theorem load_of_lt {image : List Byte} (h : 65536 < image.length) : State.load image = none := if_neg (Nat.not_le.2 h)

@[simp] theorem reset_x (i : RegCode) : State.reset.x i = 0 := by simp [State.x, State.reset]

end Sys2Proof.Machine
end

section
/-! The obligations of reset and load (10_state.md section 8, 70_reset_and_hazards.md). -/

namespace Sys2Proof.Machine

/-- Settles O1: field by field. -/
theorem resetStateAsSpecified : Obligations.ResetStateAsSpecified :=
  ⟨reset_x, rfl, rfl, rfl, Memory.read_nil, rfl, rfl, rfl, rfl, rfl⟩

/-- Settles O2: a running state without a fault, with empty memory. -/
theorem resetSatisfiesInvariant : Obligations.ResetSatisfiesInvariant :=
  State.inv_of_not_faulted rfl (Nat.zero_le _) rfl nofun rfl

/-- Settles O3: `read_imageCells` at the image's address 0; every other field is that of reset. -/
theorem loadPlacesImage : Obligations.LoadPlacesImage := by
  intro image
  refine ⟨fun h => ⟨_, load_of_le h, fun a => ?_, reset_x, rfl, rfl, rfl, rfl, rfl, rfl, rfl, rfl⟩, load_of_lt⟩
  simp [read_imageCells]

/-- Settles O4: the cells of a loaded image are canonical, and its length is in range. -/
theorem loadedStateSatisfiesInvariant : Obligations.LoadedStateSatisfiesInvariant := by
  intro image s h
  by_cases hlen : image.length ≤ 65536
  · cases (load_of_le hlen).symm.trans h
    exact State.inv_of_not_faulted (wfFrom_imageCells image 0 (by simpa [Config.memSize] using hlen)) hlen rfl nofun rfl
  · cases (load_of_lt (Nat.not_le.1 hlen)).symm.trans h

/-- Settles O5: the empty image is loaded with `L` 0, so the run is over at its first step. -/
theorem emptyImageHaltsAtOnce : Obligations.EmptyImageHaltsAtOnce :=
  ⟨_, load_of_le (Nat.zero_le _), stepHaltsAtEndOfProgram _ rfl le_rfl⟩

end Sys2Proof.Machine
end

section
/-! The obligations of the opcode map (30_encoding.md section 4). -/

namespace Sys2Proof

/-- Settles O21: the decoder run on each word. -/
theorem specWordsDecode : Obligations.SpecWordsDecode :=
  ⟨rfl, rfl, rfl, rfl, rfl, rfl, rfl, rfl, rfl, rfl, rfl⟩

/-- Settles O22: the map and the table agree on every byte, and the table is counted. -/
theorem acceptedOpcodeBytes : Obligations.AcceptedOpcodeBytes := ⟨Machine.familyOf_isSome, by decide⟩

/-- Two rows have no byte in common when their patterns differ under both masks. -/
theorem not_has_of_patterns_ne {r q : OpcodeRow} (h : r.pattern &&& q.mask ≠ q.pattern &&& r.mask) (b : Byte) :
    ¬ (r.has b = true ∧ q.has b = true) := by
  rintro ⟨hr, hq⟩
  simp only [OpcodeRow.has, beq_iff_eq] at hr hq
  rw [← hr, ← hq, BitVec.and_assoc, BitVec.and_assoc, BitVec.and_comm r.mask] at h
  exact h rfl

/-- Settles O23: pair by pair, the patterns differ under both masks. -/
theorem opcodeRowsAreDisjoint : Obligations.OpcodeRowsAreDisjoint := by
  have hpatterns : opcodeRows.Pairwise fun r q => r.pattern &&& q.mask ≠ q.pattern &&& r.mask := by decide
  exact hpatterns.imp not_has_of_patterns_ne

end Sys2Proof
end
